-- ==== Sys2Proof/Word.lean ====
section
/-! DEFINITION. The machine's word types (R6, R7, R16, R55): every value is an unsigned bit vector of a
fixed width, and a register number is one of sixteen names. -/

namespace Sys2Proof

/-- A byte of MEM and the contents of a general register or timer (R6, R7, R8). -/
abbrev Byte := BitVec 8

/-- A 16-bit word: PC, I, a return address, an opcode (R7, R54). -/
abbrev Word := BitVec 16

/-- The 12-bit address immediate nnn (R55). -/
abbrev Addr := BitVec 12

/-- A 4-bit field: the row count n of Dxyn, or a minor opcode (R55). -/
abbrev Nibble := BitVec 4

/-- A general register number, V0 to VF (R17): every value is legal (R56). -/
abbrev RegIdx := Fin 16

/-- The number of VF, the general register that is also the flag (R19). -/
abbrev VF : RegIdx := 15

end Sys2Proof
end

