-- ==== Sys2Proof/Syntax.lean ====
section
/-! DEFINITION. The instruction set (R2, R58): one constructor for each of the 33 rows of the opcode table, in
the table's order. The operand types hold exactly the values the fields of R55 hold. -/

namespace Sys2Proof

/-- The 33 instructions (R58); `x` and `y` are register numbers, `nn`, `nnn` and `n` the immediates of R55. -/
inductive Instr where
  /-- 00E0, CLS (R93). -/
  | cls
  /-- 00EE, RET (R65). -/
  | ret
  /-- 1nnn, JP addr (R66). -/
  | jp (nnn : Addr)
  /-- 2nnn, CALL addr (R67). -/
  | call (nnn : Addr)
  /-- 3xnn, SE Vx, byte (R68). -/
  | seImm (x : RegIdx) (nn : Byte)
  /-- 4xnn, SNE Vx, byte (R69). -/
  | sneImm (x : RegIdx) (nn : Byte)
  /-- 5xy0, SE Vx, Vy (R70). -/
  | seReg (x y : RegIdx)
  /-- 6xnn, LD Vx, byte (R73). -/
  | ldImm (x : RegIdx) (nn : Byte)
  /-- 7xnn, ADD Vx, byte (R74). -/
  | addImm (x : RegIdx) (nn : Byte)
  /-- 8xy0, LD Vx, Vy (R75). -/
  | ldReg (x y : RegIdx)
  /-- 8xy1, OR Vx, Vy (R76). -/
  | orReg (x y : RegIdx)
  /-- 8xy2, AND Vx, Vy (R77). -/
  | andReg (x y : RegIdx)
  /-- 8xy3, XOR Vx, Vy (R78). -/
  | xorReg (x y : RegIdx)
  /-- 8xy4, ADD Vx, Vy (R79). -/
  | addReg (x y : RegIdx)
  /-- 8xy5, SUB Vx, Vy (R80). -/
  | sub (x y : RegIdx)
  /-- 8xy6, SHR Vx (R81); the y field is decoded and has no effect (R60). -/
  | shr (x y : RegIdx)
  /-- 8xy7, SUBN Vx, Vy (R82). -/
  | subn (x y : RegIdx)
  /-- 8xyE, SHL Vx (R83); the y field is decoded and has no effect (R60). -/
  | shl (x y : RegIdx)
  /-- 9xy0, SNE Vx, Vy (R71). -/
  | sneReg (x y : RegIdx)
  /-- Annn, LD I, addr (R86). -/
  | ldI (nnn : Addr)
  /-- Cxnn, RND Vx, byte (R84). -/
  | rnd (x : RegIdx) (nn : Byte)
  /-- Dxyn, DRW Vx, Vy, nibble (R94). -/
  | drw (x y : RegIdx) (n : Nibble)
  /-- Ex9E, SKP Vx (R98). -/
  | skp (x : RegIdx)
  /-- ExA1, SKNP Vx (R99). -/
  | sknp (x : RegIdx)
  /-- Fx07, LD Vx, DT (R100). -/
  | ldVxDt (x : RegIdx)
  /-- Fx0A, LD Vx, K (R101). -/
  | ldVxK (x : RegIdx)
  /-- Fx15, LD DT, Vx (R102). -/
  | ldDtVx (x : RegIdx)
  /-- Fx18, LD ST, Vx (R103). -/
  | ldStVx (x : RegIdx)
  /-- Fx1E, ADD I, Vx (R87). -/
  | addI (x : RegIdx)
  /-- Fx29, LD F, Vx (R88). -/
  | ldF (x : RegIdx)
  /-- Fx33, LD B, Vx (R89). -/
  | ldB (x : RegIdx)
  /-- Fx55, LD [I], Vx (R90). -/
  | ldStore (x : RegIdx)
  /-- Fx65, LD Vx, [I] (R91). -/
  | ldLoad (x : RegIdx)
  deriving DecidableEq, Repr

/-- The name of an instruction's row in the opcode table (R58). -/
def Instr.mnemonic : Instr → String
  | .cls => "CLS"
  | .ret => "RET"
  | .jp _ => "JP"
  | .call _ => "CALL"
  | .seImm _ _ => "SE_imm"
  | .sneImm _ _ => "SNE_imm"
  | .seReg _ _ => "SE_reg"
  | .ldImm _ _ => "LD_imm"
  | .addImm _ _ => "ADD_imm"
  | .ldReg _ _ => "LD_reg"
  | .orReg _ _ => "OR"
  | .andReg _ _ => "AND"
  | .xorReg _ _ => "XOR"
  | .addReg _ _ => "ADD_reg"
  | .sub _ _ => "SUB"
  | .shr _ _ => "SHR"
  | .subn _ _ => "SUBN"
  | .shl _ _ => "SHL"
  | .sneReg _ _ => "SNE_reg"
  | .ldI _ => "LD_I"
  | .rnd _ _ => "RND"
  | .drw _ _ _ => "DRW"
  | .skp _ => "SKP"
  | .sknp _ => "SKNP"
  | .ldVxDt _ => "LD_Vx_DT"
  | .ldVxK _ => "LD_Vx_K"
  | .ldDtVx _ => "LD_DT_Vx"
  | .ldStVx _ => "LD_ST_Vx"
  | .addI _ => "ADD_I"
  | .ldF _ => "LD_F"
  | .ldB _ => "LD_B"
  | .ldStore _ => "LD_store"
  | .ldLoad _ => "LD_load"

end Sys2Proof
end

