-- ==== Sys2Proof/Decode.lean ====
section
/-! DEFINITION. Instruction encoding (R54 to R61): the fields of a word, the decoder, total on all words and
rejecting by name, the encoder, and the opcode map of R58 as data. -/

namespace Sys2Proof

/-! ### Fields (R55) -/

/-- The major opcode o, op[15:12]. -/
def fieldO (w : Word) : Nibble := w.extractLsb' 12 4

/-- The register number x, op[11:8]. -/
def fieldX (w : Word) : RegIdx := (w.extractLsb' 8 4).toFin

/-- The register number y, op[7:4]. -/
def fieldY (w : Word) : RegIdx := (w.extractLsb' 4 4).toFin

/-- The row count or minor opcode n, op[3:0]. -/
def fieldN (w : Word) : Nibble := w.extractLsb' 0 4

/-- The byte immediate or minor opcode nn, op[7:0]. -/
def fieldNn (w : Word) : Byte := w.extractLsb' 0 8

/-- The address immediate nnn, op[11:0]. -/
def fieldNnn (w : Word) : Addr := w.extractLsb' 0 12

/-- Byte order of a fetched opcode (R45): the byte at the lower address is the high byte. -/
def wordOfBytes (first second : Byte) : Word := first ++ second

/-- The byte of a word at the lower address (R45). -/
def firstByte (w : Word) : Byte := w.extractLsb' 8 8

/-- The byte of a word at the higher address (R45). -/
def secondByte (w : Word) : Byte := w.extractLsb' 0 8

/-! ### The decoder (R57, R59) -/

/-- What a word decodes to: one of the 33 instructions, or a rejection by the name the spec gives it. -/
inductive Decoded where
  /-- The word is an encoding of this instruction. -/
  | instr (i : Instr)
  /-- The word matches no row of R58 (R59). -/
  | unknownOpcode (w : Word)
  deriving DecidableEq, Repr

/-- Group 8, dispatched on the low nibble (R57). -/
def decodeGroup8 (w : Word) : Decoded :=
  match fieldN w with
  | 0x0#4 => .instr (.ldReg (fieldX w) (fieldY w))
  | 0x1#4 => .instr (.orReg (fieldX w) (fieldY w))
  | 0x2#4 => .instr (.andReg (fieldX w) (fieldY w))
  | 0x3#4 => .instr (.xorReg (fieldX w) (fieldY w))
  | 0x4#4 => .instr (.addReg (fieldX w) (fieldY w))
  | 0x5#4 => .instr (.sub (fieldX w) (fieldY w))
  | 0x6#4 => .instr (.shr (fieldX w) (fieldY w))
  | 0x7#4 => .instr (.subn (fieldX w) (fieldY w))
  | 0xE#4 => .instr (.shl (fieldX w) (fieldY w))
  | _ => .unknownOpcode w

/-- Group F, dispatched on the low byte (R57). -/
def decodeGroupF (w : Word) : Decoded :=
  match fieldNn w with
  | 0x07#8 => .instr (.ldVxDt (fieldX w))
  | 0x0A#8 => .instr (.ldVxK (fieldX w))
  | 0x15#8 => .instr (.ldDtVx (fieldX w))
  | 0x18#8 => .instr (.ldStVx (fieldX w))
  | 0x1E#8 => .instr (.addI (fieldX w))
  | 0x29#8 => .instr (.ldF (fieldX w))
  | 0x33#8 => .instr (.ldB (fieldX w))
  | 0x55#8 => .instr (.ldStore (fieldX w))
  | 0x65#8 => .instr (.ldLoad (fieldX w))
  | _ => .unknownOpcode w

/-- The decode algorithm of R57, dispatched on the high nibble. -/
def decode (w : Word) : Decoded :=
  match fieldO w with
  | 0x0#4 =>
    if w = 0x00E0#16 then .instr .cls
    else if w = 0x00EE#16 then .instr .ret
    else .unknownOpcode w
  | 0x1#4 => .instr (.jp (fieldNnn w))
  | 0x2#4 => .instr (.call (fieldNnn w))
  | 0x3#4 => .instr (.seImm (fieldX w) (fieldNn w))
  | 0x4#4 => .instr (.sneImm (fieldX w) (fieldNn w))
  | 0x5#4 => if fieldN w = 0x0#4 then .instr (.seReg (fieldX w) (fieldY w)) else .unknownOpcode w
  | 0x6#4 => .instr (.ldImm (fieldX w) (fieldNn w))
  | 0x7#4 => .instr (.addImm (fieldX w) (fieldNn w))
  | 0x8#4 => decodeGroup8 w
  | 0x9#4 => if fieldN w = 0x0#4 then .instr (.sneReg (fieldX w) (fieldY w)) else .unknownOpcode w
  | 0xA#4 => .instr (.ldI (fieldNnn w))
  | 0xC#4 => .instr (.rnd (fieldX w) (fieldNn w))
  | 0xD#4 => .instr (.drw (fieldX w) (fieldY w) (fieldN w))
  | 0xE#4 =>
    if fieldNn w = 0x9E#8 then .instr (.skp (fieldX w))
    else if fieldNn w = 0xA1#8 then .instr (.sknp (fieldX w))
    else .unknownOpcode w
  | 0xF#4 => decodeGroupF w
  -- 0xB: every 0xBnnn is illegal (R59)
  | _ => .unknownOpcode w

/-! ### The encoder, from the bit strings of R55 and the opcode map of R58 -/

/-- The form "o nnn". -/
def formAddr (o : Nibble) (nnn : Addr) : Word := o ++ nnn

/-- The form "o x nn", which is also the form "o x minor-byte". -/
def formByte (o : Nibble) (x : RegIdx) (nn : Byte) : Word := o ++ (BitVec.ofFin x : Nibble) ++ nn

/-- The form "o x y n", which is also the form "o x y minor". -/
def formNibble (o : Nibble) (x y : RegIdx) (n : Nibble) : Word :=
  o ++ (BitVec.ofFin x : Nibble) ++ (BitVec.ofFin y : Nibble) ++ n

/-- The word of an instruction (R55, R58). -/
def encode : Instr → Word
  | .cls => 0x00E0
  | .ret => 0x00EE
  | .jp nnn => formAddr 0x1 nnn
  | .call nnn => formAddr 0x2 nnn
  | .seImm x nn => formByte 0x3 x nn
  | .sneImm x nn => formByte 0x4 x nn
  | .seReg x y => formNibble 0x5 x y 0x0
  | .ldImm x nn => formByte 0x6 x nn
  | .addImm x nn => formByte 0x7 x nn
  | .ldReg x y => formNibble 0x8 x y 0x0
  | .orReg x y => formNibble 0x8 x y 0x1
  | .andReg x y => formNibble 0x8 x y 0x2
  | .xorReg x y => formNibble 0x8 x y 0x3
  | .addReg x y => formNibble 0x8 x y 0x4
  | .sub x y => formNibble 0x8 x y 0x5
  | .shr x y => formNibble 0x8 x y 0x6
  | .subn x y => formNibble 0x8 x y 0x7
  | .shl x y => formNibble 0x8 x y 0xE
  | .sneReg x y => formNibble 0x9 x y 0x0
  | .ldI nnn => formAddr 0xA nnn
  | .rnd x nn => formByte 0xC x nn
  | .drw x y n => formNibble 0xD x y n
  | .skp x => formByte 0xE x 0x9E
  | .sknp x => formByte 0xE x 0xA1
  | .ldVxDt x => formByte 0xF x 0x07
  | .ldVxK x => formByte 0xF x 0x0A
  | .ldDtVx x => formByte 0xF x 0x15
  | .ldStVx x => formByte 0xF x 0x18
  | .addI x => formByte 0xF x 0x1E
  | .ldF x => formByte 0xF x 0x29
  | .ldB x => formByte 0xF x 0x33
  | .ldStore x => formByte 0xF x 0x55
  | .ldLoad x => formByte 0xF x 0x65

/-! ### The opcode map as data (R58) -/

/-- A row of the opcode map: a word is the row's when its bits under `mask` are `pattern`. -/
structure OpcodeRow where
  mnemonic : String
  pattern : Word
  mask : Word
  deriving DecidableEq, Repr

/-- The test of R57: `op & mask == match`. -/
def OpcodeRow.selects (r : OpcodeRow) (w : Word) : Bool := w &&& r.mask == r.pattern

/-- The rows of R58 for the groups 0 to 7. -/
def opcodeRows0to7 : List OpcodeRow :=
  [⟨"CLS", 0x00E0, 0xFFFF⟩, ⟨"RET", 0x00EE, 0xFFFF⟩, ⟨"JP", 0x1000, 0xF000⟩,
   ⟨"CALL", 0x2000, 0xF000⟩, ⟨"SE_imm", 0x3000, 0xF000⟩, ⟨"SNE_imm", 0x4000, 0xF000⟩,
   ⟨"SE_reg", 0x5000, 0xF00F⟩, ⟨"LD_imm", 0x6000, 0xF000⟩, ⟨"ADD_imm", 0x7000, 0xF000⟩]

/-- The rows of R58 for group 8. -/
def opcodeRows8 : List OpcodeRow :=
  [⟨"LD_reg", 0x8000, 0xF00F⟩, ⟨"OR", 0x8001, 0xF00F⟩, ⟨"AND", 0x8002, 0xF00F⟩,
   ⟨"XOR", 0x8003, 0xF00F⟩, ⟨"ADD_reg", 0x8004, 0xF00F⟩, ⟨"SUB", 0x8005, 0xF00F⟩,
   ⟨"SHR", 0x8006, 0xF00F⟩, ⟨"SUBN", 0x8007, 0xF00F⟩, ⟨"SHL", 0x800E, 0xF00F⟩]

/-- The rows of R58 for the groups 9 to F. -/
def opcodeRows9toF : List OpcodeRow :=
  [⟨"SNE_reg", 0x9000, 0xF00F⟩, ⟨"LD_I", 0xA000, 0xF000⟩, ⟨"RND", 0xC000, 0xF000⟩,
   ⟨"DRW", 0xD000, 0xF000⟩, ⟨"SKP", 0xE09E, 0xF0FF⟩, ⟨"SKNP", 0xE0A1, 0xF0FF⟩,
   ⟨"LD_Vx_DT", 0xF007, 0xF0FF⟩, ⟨"LD_Vx_K", 0xF00A, 0xF0FF⟩, ⟨"LD_DT_Vx", 0xF015, 0xF0FF⟩,
   ⟨"LD_ST_Vx", 0xF018, 0xF0FF⟩, ⟨"ADD_I", 0xF01E, 0xF0FF⟩, ⟨"LD_F", 0xF029, 0xF0FF⟩,
   ⟨"LD_B", 0xF033, 0xF0FF⟩, ⟨"LD_store", 0xF055, 0xF0FF⟩, ⟨"LD_load", 0xF065, 0xF0FF⟩]

/-- The opcode map of R58, in its order. -/
def opcodeRows : List OpcodeRow := opcodeRows0to7 ++ opcodeRows8 ++ opcodeRows9toF

/-! ### Words as the opcode table numbers them -/

/-- An instruction's word from its bits as the opcode table numbers them: one 16-bit word, bit 0 its least
significant bit, and every bit above `nbits` zero (R11, R54). -/
def tableWord (nbits w : Nat) : Word := BitVec.ofNat 16 (w % 2 ^ nbits)

/-- Decoding the two bytes of an instruction as they lie in memory (R44). -/
def decodeBytes (first second : Byte) : Decoded := decode (wordOfBytes first second)

/-- The instruction the decoder reads from a table word laid out in memory, high byte first (R45). -/
def decodeTableWord (nbits w : Nat) : Option Instr :=
  match decodeBytes (firstByte (tableWord nbits w)) (secondByte (tableWord nbits w)) with
  | .instr i => some i
  | .unknownOpcode _ => none

/-! ### Assembler syntax (R62)

The conventional names a program is written in (decision D13). They change no behaviour; how numbers are written is log entry 21. -/

/-- One hexadecimal digit, as R62's examples write it. -/
def hexDigit (n : Nat) : String :=
  match ["0", "1", "2", "3", "4", "5", "6", "7", "8", "9", "A", "B", "C", "D", "E", "F"][n % 16]? with
  | some d => d
  | none => "0"

/-- `V0` to `VF`. -/
def asmReg (x : RegIdx) : String := "V" ++ hexDigit x.val

/-- An 8-bit number. -/
def asmByte (nn : Byte) : String := "0x" ++ hexDigit (nn.toNat / 16) ++ hexDigit nn.toNat

/-- A 12-bit address. -/
def asmAddr (nnn : Addr) : String :=
  "0x" ++ hexDigit (nnn.toNat / 256) ++ hexDigit (nnn.toNat / 16) ++ hexDigit nnn.toNat

/-- A 4-bit number. -/
def asmNibble (n : Nibble) : String := if n.toNat < 10 then hexDigit n.toNat else "0x" ++ hexDigit n.toNat

/-- The optional `Vy` of SHR and SHL, which only fills the y field and is omitted for 0. -/
def asmOptional (y : RegIdx) : String := if y = 0 then "" else ", " ++ asmReg y

/-- The assembler syntax of an instruction (R62). -/
def assembly : Instr → String
  | .cls => "CLS"
  | .ret => "RET"
  | .jp nnn => "JP " ++ asmAddr nnn
  | .call nnn => "CALL " ++ asmAddr nnn
  | .seImm x nn => "SE " ++ asmReg x ++ ", " ++ asmByte nn
  | .sneImm x nn => "SNE " ++ asmReg x ++ ", " ++ asmByte nn
  | .seReg x y => "SE " ++ asmReg x ++ ", " ++ asmReg y
  | .ldImm x nn => "LD " ++ asmReg x ++ ", " ++ asmByte nn
  | .addImm x nn => "ADD " ++ asmReg x ++ ", " ++ asmByte nn
  | .ldReg x y => "LD " ++ asmReg x ++ ", " ++ asmReg y
  | .orReg x y => "OR " ++ asmReg x ++ ", " ++ asmReg y
  | .andReg x y => "AND " ++ asmReg x ++ ", " ++ asmReg y
  | .xorReg x y => "XOR " ++ asmReg x ++ ", " ++ asmReg y
  | .addReg x y => "ADD " ++ asmReg x ++ ", " ++ asmReg y
  | .sub x y => "SUB " ++ asmReg x ++ ", " ++ asmReg y
  | .shr x y => "SHR " ++ asmReg x ++ asmOptional y
  | .subn x y => "SUBN " ++ asmReg x ++ ", " ++ asmReg y
  | .shl x y => "SHL " ++ asmReg x ++ asmOptional y
  | .sneReg x y => "SNE " ++ asmReg x ++ ", " ++ asmReg y
  | .ldI nnn => "LD I, " ++ asmAddr nnn
  | .rnd x nn => "RND " ++ asmReg x ++ ", " ++ asmByte nn
  | .drw x y n => "DRW " ++ asmReg x ++ ", " ++ asmReg y ++ ", " ++ asmNibble n
  | .skp x => "SKP " ++ asmReg x
  | .sknp x => "SKNP " ++ asmReg x
  | .ldVxDt x => "LD " ++ asmReg x ++ ", DT"
  | .ldVxK x => "LD " ++ asmReg x ++ ", K"
  | .ldDtVx x => "LD DT, " ++ asmReg x
  | .ldStVx x => "LD ST, " ++ asmReg x
  | .addI x => "ADD I, " ++ asmReg x
  | .ldF x => "LD F, " ++ asmReg x
  | .ldB x => "LD B, " ++ asmReg x
  | .ldStore x => "LD [I], " ++ asmReg x
  | .ldLoad x => "LD " ++ asmReg x ++ ", [I]"

end Sys2Proof
end

