-- ==== Sys2Proof/Config.lean ====
section
/-! DEFINITION. What an implementation fixes (R6 to R10): the sizes that the source states, the three
parameters that no source fixes, and the free values that stand for the host's inputs. -/

namespace Sys2Proof

/-- MEM_SIZE (R6). -/
abbrev memSize : Nat := 4096

/-- FONT_SIZE, 16 glyphs of 5 bytes from FONT_BASE = 0x000 (R6). -/
abbrev fontSize : Nat := 80

/-- PROG_BASE, where a program is loaded and where PC stands after LOAD (R6, R38). -/
abbrev progBase : Nat := 0x200

/-- MAX_PROG, the largest program image in bytes (R6). -/
abbrev maxProg : Nat := 3584

/-- FB_W, the columns of the framebuffer (R9). -/
abbrev fbWidth : Nat := 64

/-- FB_H, the rows of the framebuffer (R9). -/
abbrev fbHeight : Nat := 32

/-- LOAD_OVERSIZE_POLICY (R10, R119): what LOAD does with an image longer than MAX_PROG. -/
inductive OversizePolicy where
  | reject
  | truncate
  deriving DecidableEq, Repr

/-- The parameters a model takes as arguments (R10). A machine's `Config` is fixed: no step changes it.
It is carried in the state so that every statement about all states is about all parameters too
(log entry 1). -/
structure Config where
  /-- FONT_TABLE, the 80 bytes that LOAD puts at 0x000 to 0x04F (R41). -/
  fontTable : Vector Byte 80
  /-- LOAD_OVERSIZE_POLICY (R10). -/
  oversizePolicy : OversizePolicy
  /-- CYCLES_PER_TICK, at least 1 (R8, `Config.WellFormed`). -/
  cyclesPerTick : Nat
  deriving DecidableEq, Repr

namespace Config

/-- The glyphs 0 to 7 of the default font (R41). -/
def defaultGlyphs0to7 : List Byte :=
  [0xF0, 0x90, 0x90, 0x90, 0xF0] ++ [0x20, 0x60, 0x20, 0x20, 0x70] ++
  [0xF0, 0x10, 0xF0, 0x80, 0xF0] ++ [0xF0, 0x10, 0xF0, 0x10, 0xF0] ++
  [0x90, 0x90, 0xF0, 0x10, 0x10] ++ [0xF0, 0x80, 0xF0, 0x10, 0xF0] ++
  [0xF0, 0x80, 0xF0, 0x90, 0xF0] ++ [0xF0, 0x10, 0x20, 0x40, 0x40]

/-- The glyphs 8 to F of the default font (R41). -/
def defaultGlyphs8toF : List Byte :=
  [0xF0, 0x90, 0xF0, 0x90, 0xF0] ++ [0xF0, 0x90, 0xF0, 0x10, 0xF0] ++
  [0xF0, 0x90, 0xF0, 0x90, 0x90] ++ [0xE0, 0x90, 0xE0, 0x90, 0xE0] ++
  [0xF0, 0x80, 0x80, 0x80, 0xF0] ++ [0xE0, 0x90, 0x90, 0x90, 0xE0] ++
  [0xF0, 0x80, 0xF0, 0x80, 0xF0] ++ [0xF0, 0x80, 0xF0, 0x80, 0x80]

/-- PRESUMED (log entry 2). The default FONT_TABLE of R41, which the spec takes from general knowledge: the
font of `Config.standard` alone, so no claim over all states rests on these bytes. -/
def defaultFont : Vector Byte 80 :=
  ⟨(defaultGlyphs0to7 ++ defaultGlyphs8toF).toArray, rfl⟩

/-- The parameters of the machine that `State.reset` describes: the default font (log entry 2), a rejected
oversize image (DESIGN CHOICE, log entry 3: R10 gives no default) and CYCLES_PER_TICK at its default 9 (R8). -/
def standard : Config :=
  { fontTable := defaultFont, oversizePolicy := .reject, cyclesPerTick := 9 }

/-- A FREE VALUE (R34, log entry 4): the keypad snapshot of the n-th STEP for which no input is queued. -/
opaque freeKey : Nat → BitVec 16

/-- A FREE VALUE (R35, log entry 4): the random byte of the n-th STEP for which no input is queued. -/
opaque freeRnd : Nat → Byte

end Config

end Sys2Proof
end

