-- ==== Sys2Proof/WellFormed.lean ====
section
/-! DEFINITION. The static checks. An instruction needs none: the operand types of `Instr` hold exactly the
values of the fields of R55, every one of which is legal (R56, R60), so no ill-formed instruction can be written.
What is left to check is the parameter CYCLES_PER_TICK and the length of a program image. -/

namespace Sys2Proof

/-- CYCLES_PER_TICK is an integer of at least 1, for a reload of 0 would never tick (R8). -/
def Config.WellFormed (c : Config) : Bool :=
  decide (1 ≤ c.cyclesPerTick)

/-- An image fits when it is at most MAX_PROG bytes long (R6, R119). -/
def imageFits (image : List Byte) : Bool :=
  decide (image.length ≤ maxProg)

end Sys2Proof
end

