-- ==== Sys2Proof/Machine/State.lean ====
section
/-! DEFINITION. The machine's state (R16): everything the spec gives the core, as plain data, beside the
parameters of R10 and the host's side of the interface of R36. The state after reset is `State.reset`. -/

namespace Sys2Proof.Machine

/-- MEM as data (R39): the bytes that differ from what an unlisted address reads as, by rising address. -/
abbrev Memory := List Host.Cell

/-- The framebuffer (R29): row r is a 64-bit word whose bit 63 is column 0 (R92). -/
abbrev Framebuffer := Vector (BitVec 64) 32

/-- STATUS (R30). -/
inductive Status where
  /-- Before the first LOAD (R121). -/
  | unloaded
  /-- After a successful LOAD. -/
  | ready
  /-- After a fatal error (R108). -/
  | halted
  deriving DecidableEq, Repr

/-- An operation the host asks of the core (R36). -/
inductive HostOp where
  /-- LOAD(image) (R119). -/
  | load (image : List Byte)
  /-- STEP(KEY, RND) (R37): bit k of `key` is KEY[k] (R34). -/
  | step (key : BitVec 16) (rnd : Byte)
  deriving DecidableEq, Repr

/-- The result an operation returns to the host (R36). -/
inductive OpResult where
  /-- OK. -/
  | ok
  /-- The error with this code of R105. -/
  | error (code : BitVec 3)
  /-- LOAD_TOO_LARGE (R119). -/
  | loadTooLarge
  deriving DecidableEq, Repr

/-- The host's side of the interface (R36), which is the model's own and no state of the core: KEY and RND are
step inputs (R16), and an operation's result goes out to the host (log entry 4). -/
structure HostPort where
  /-- The operations the host has asked for, oldest first. While it is empty, every step is a STEP with free inputs. -/
  pending : List HostOp
  /-- How many steps have taken free inputs; the next one takes `Config.freeKey` and `Config.freeRnd` of it. -/
  freeSteps : Nat
  /-- KEY, the keypad snapshot of the current STEP: bit k is KEY[k], 1 when key k is pressed (R34). -/
  key : BitVec 16
  /-- RND, the random byte of the current STEP (R35). -/
  rnd : Byte
  /-- What the last operation returned to the host. -/
  result : OpResult
  deriving DecidableEq, Repr

/-- The state of the machine. The fields from `v` to `mem` are the core's architectural state, all of R16. -/
structure State where
  /-- V[0] to V[15] (R17); V[15] is VF (R19). -/
  v : Vector Byte 16
  /-- I, the index register (R24). -/
  i : Word
  /-- PC, the address of the next instruction (R20). -/
  pc : Word
  /-- STACK[0] to STACK[15], the return addresses (R25). -/
  stack : Vector Word 16
  /-- SP, the number of stack entries in use, 0 to 16 (R26). -/
  sp : Fin 17
  /-- DT, the delay timer (R27). -/
  dt : Byte
  /-- ST, the sound timer (R27). -/
  st : Byte
  /-- DIV, the cycle divider, 1 to CYCLES_PER_TICK between steps (R28). -/
  div : Nat
  /-- FB(c, r), the framebuffer (R29). -/
  fb : Framebuffer
  /-- STATUS (R30). -/
  status : Status
  /-- ERR_CODE (R31), the code of R105; 0 is no error. -/
  errCode : BitVec 3
  /-- ERR_PC (R31). -/
  errPc : Word
  /-- ERR_OP (R31). -/
  errOp : Word
  /-- ERR_ADDR (R31). -/
  errAddr : Word
  /-- MEM (R39). -/
  mem : Memory
  /-- The parameters of R10; no step changes them. -/
  config : Config
  /-- The host's side of the interface (R36). -/
  host : HostPort
  deriving DecidableEq, Repr

/-- Why a step stops with no next state, where the spec describes no state to go on in. Every error the spec
names is a next state (R107), so the one fault is for a state the spec says never occurs. -/
inductive Fault where
  /-- Raised by the divider advance at the end of a step when DIV is 0, so that `DIV <- DIV - 1` (R113) has no
  value; R32 says DIV is never 0 between steps. Safe: the machine stops where the spec gives no effect (log
  entry 6). -/
  | dividerZero
  deriving DecidableEq, Repr

/-- Why a step is refused. -/
inductive Refusal where
  /-- Raised by `exec` for an instruction that has no meaning yet. Safe: the machine stops. No arm raises it. -/
  | notModelled (mnemonic : String)
  /-- Raised by a STEP in UNLOADED, which R121 refuses: it has no meaning and produces no state. Safe. -/
  | notLoaded
  deriving DecidableEq, Repr

/-- The host's side of the interface when nothing has been asked yet beyond the LOAD that reset is, which
returned OK; the latched KEY and RND are DESIGN CHOICE values that the first STEP replaces (log entry 5). -/
def HostPort.initial : HostPort :=
  { pending := [], freeSteps := 0, key := 0, rnd := 0, result := .ok }

/-- The machine right after reset, which is LOAD (R119), with nothing placed in memory: the values of R38 for an
image of 0 bytes, under the parameters `Config.standard`. -/
def State.reset : State :=
  { v := Vector.replicate 16 0
    i := 0
    pc := 0x200
    stack := Vector.replicate 16 0
    sp := 0
    dt := 0
    st := 0
    div := Config.standard.cyclesPerTick
    fb := Vector.replicate 32 0
    status := .ready
    errCode := 0
    errPc := 0
    errOp := 0
    errAddr := 0
    mem := []
    config := Config.standard
    host := HostPort.initial }

end Sys2Proof.Machine
end

