-- ==== Sys2Proof/Machine/Operands.lean ====
section
/-! DEFINITION. Operands (R12, R56): reading and writing a general register, widening an immediate, and
narrowing a result. -/

namespace Sys2Proof.Machine

/-- `V[x]` (R17). -/
def State.reg (s : State) (x : RegIdx) : Byte := s.v[x]

/-- `V[x] <- b` (R17): there is no hardwired register. -/
def State.setReg (s : State) (x : RegIdx) (b : Byte) : State := { s with v := s.v.set x b }

/-- `trunc_8` (R12). -/
def trunc8 (n : Nat) : Byte := BitVec.ofNat 8 n

/-- `trunc_16` (R12). -/
def trunc16 (n : Nat) : Word := BitVec.ofNat 16 n

/-- `zext_16` of an address immediate (R56). -/
def zext16 (nnn : Addr) : Word := nnn.setWidth 16

/-- KEY[k] of the current step's keypad snapshot (R34). -/
def State.keyPressed (s : State) (k : Nat) : Bool := s.host.key.getLsbD k

/-- The lowest-numbered pressed key of the snapshot, `min { k : KEY[k] == 1 }` (R101), or none. -/
def State.lowestKey (s : State) : Option Nat := (List.range 16).find? s.keyPressed

end Sys2Proof.Machine
end

