-- ==== Sys2Proof/Machine/Flags.lean ====
section
/-! DEFINITION. The flag computations (R19): VF is the only flag, and a flag is the byte 0 or 1. -/

namespace Sys2Proof.Machine

/-- A flag's value in VF. -/
def flagByte (b : Bool) : Byte := if b then 1 else 0

/-- 8xy4: whether V[x] + V[y] is above 255 (R79). -/
def addCarries (a b : Byte) : Bool := decide (a.toNat + b.toNat > 255)

/-- 8xy5 and 8xy7: no borrow, the minuend strictly greater than the subtrahend (R80, R82). -/
def noBorrow (minuend subtrahend : Byte) : Byte := flagByte (decide (minuend.toNat > subtrahend.toNat))

/-- 8xy6: the bit a right shift by one shifts out (R81). -/
def shiftedOutRight (a : Byte) : Byte := a &&& 0x01

/-- 8xyE: the bit a left shift by one shifts out, as 0 or 1 (R83). -/
def shiftedOutLeft (a : Byte) : Byte := flagByte (a &&& 0x80 != 0)

/-- `V[F] <- flag`. -/
def State.setFlag (s : State) (flag : Byte) : State := s.setReg VF flag

end Sys2Proof.Machine
end

