-- ==== Sys2Proof/Machine/Ops.lean ====
section
/-! DEFINITION. The shared operations: memory (R39 to R48), PC (R20, R21), the stack (R26), the divider (R113),
taking an error (R107), and LOAD (R119), the only way back from one (R108). -/

namespace Sys2Proof.Machine

/-- What an instruction's meaning answers. -/
abbrev Result := Host.Outcome State Fault Refusal

/-! ### MEM -/

/-- What an address of MEM that the memory does not list reads as: the contents after LOAD of an empty image,
FONT_TABLE at 0x000 to 0x04F and 0 elsewhere (R38, R40). -/
def Memory.unlisted (c : Config) (a : Nat) : Byte :=
  if h : a < fontSize then c.fontTable[a] else 0

/-- The byte at an address. -/
def Memory.read (c : Config) : Memory → Nat → Byte
  | [], a => Memory.unlisted c a
  | (b, w) :: m, a => if a = b then w else Memory.read c m a

/-- List one more address, in its place by rising address. -/
def Memory.insert (a : Nat) (v : Byte) : Memory → Memory
  | [] => [(a, v)]
  | (b, w) :: m => if a < b then (a, v) :: (b, w) :: m else (b, w) :: Memory.insert a v m

/-- Set the byte at an address, keeping the canonical form: an address that reads as an unlisted one does is
not listed. -/
def Memory.write (c : Config) (m : Memory) (a : Nat) (v : Byte) : Memory :=
  if v = Memory.unlisted c a then m.filter (fun e => e.1 != a)
  else Memory.insert a v (m.filter (fun e => e.1 != a))

/-- The memory that holds `image` from address `a` upward, over unlisted addresses (R119). -/
def Memory.image (c : Config) : Nat → List Byte → Memory
  | _, [] => []
  | a, b :: bs =>
    if b = Memory.unlisted c a then Memory.image c (a + 1) bs else (a, b) :: Memory.image c (a + 1) bs

/-- The canonical form from address `lo` upward: addresses strictly rising, each in MEM, and no entry equal to
what an unlisted address reads as. -/
def Memory.wfFrom (c : Config) : Nat → Memory → Bool
  | _, [] => true
  | lo, (a, v) :: m =>
    decide (lo ≤ a) && decide (a < memSize) && decide (v ≠ Memory.unlisted c a) && Memory.wfFrom c (a + 1) m

/-- The canonical form of a memory. -/
def Memory.wf (c : Config) (m : Memory) : Bool := Memory.wfFrom c 0 m

/-- `MEM[a]`, for an address the caller has checked. -/
def State.readByte (s : State) (a : Nat) : Byte := Memory.read s.config s.mem a

/-- `MEM[a] <- v`, for an address the caller has checked. -/
def State.writeByte (s : State) (a : Nat) (v : Byte) : State :=
  { s with mem := Memory.write s.config s.mem a v }

/-- Whether the `n` bytes from `a` on are all in MEM: addresses are unbounded and never wrap (R43), and a range
of no bytes is not checked (R94). -/
def rangeOk (a n : Nat) : Bool := n == 0 || decide (a + n - 1 < memSize)

/-- The ERR_ADDR of an access range that starts at `a`: the lowest address of it that is 4096 or above (R43). -/
def rangeErrAddr (a : Nat) : Word := trunc16 (max a 0x1000)

/-- The `n` bytes from `a` upward. -/
def State.bytesFrom (s : State) : Nat → Nat → List Byte
  | _, 0 => []
  | a, n + 1 => s.readByte a :: s.bytesFrom (a + 1) n

/-- `MEM[a + k] <- bs[k]`, in rising order. -/
def State.putBytes (s : State) : Nat → List Byte → State
  | _, [] => s
  | a, b :: bs => (s.writeByte a b).putBytes (a + 1) bs

/-- Reading a checked range: none when it leaves MEM (R43). -/
def State.loadBytes (s : State) (a n : Nat) : Option (List Byte) :=
  if rangeOk a n then some (s.bytesFrom a n) else none

/-- Writing a checked range: none, with nothing written, when it leaves MEM (R43). -/
def State.storeBytes (s : State) (a : Nat) (bs : List Byte) : Option State :=
  if rangeOk a bs.length then some (s.putBytes a bs) else none

/-- Fetch (R44): the word at PC and PC + 1, or none when PC + 1 is outside MEM. -/
def State.fetch (s : State) : Option Word :=
  if s.pc.toNat + 1 < memSize then
    some (wordOfBytes (s.readByte s.pc.toNat) (s.readByte (s.pc.toNat + 1)))
  else none

/-! ### General registers in a row (R90, R91) -/

/-- `V[0]` to `V[x]`. -/
def State.regsUpTo (s : State) (x : RegIdx) : List Byte := s.v.toList.take (x.val + 1)

/-- `V[k] <- bs[0]`, `V[k + 1] <- bs[1]` and so on, as far as there are registers. -/
def State.putRegs (s : State) : Nat → List Byte → State
  | _, [] => s
  | k, b :: bs => if h : k < 16 then (s.setReg ⟨k, h⟩ b).putRegs (k + 1) bs else s

/-! ### PC (R21) -/

/-- `PC <- PC + 2`. -/
def State.advance (s : State) : State := { s with pc := s.pc + 2 }

/-- `PC <- PC + 2; if cond: PC <- PC + 2` (R64). -/
def State.skipIf (s : State) (cond : Bool) : State :=
  { s with pc := if cond then s.pc + 2 + 2 else s.pc + 2 }

/-- `PC <- target`. -/
def State.jump (s : State) (target : Word) : State := { s with pc := target }

/-! ### The stack (R26) -/

/-- `STACK[SP] <- ra; SP <- SP + 1`, or none when the stack is full. -/
def State.push (s : State) (ra : Word) : Option State :=
  if h : s.sp.val < 16 then
    some { s with stack := s.stack.set s.sp.val ra, sp := ⟨s.sp.val + 1, by omega⟩ }
  else none

/-- `SP <- SP - 1`, and the entry it then points at, which keeps its value; or none when the stack is empty. -/
def State.pop (s : State) : Option (Word × State) :=
  if h : 0 < s.sp.val then
    some (s.stack[s.sp.val - 1], { s with sp := ⟨s.sp.val - 1, by omega⟩ })
  else none

/-! ### Taking an error (R104 to R108) -/

/-- The errors a step can raise (R105). -/
inductive ExecError where
  | unknownOpcode
  | stackOverflow
  | stackUnderflow
  | invalidFontIndex
  | memoryOutOfBounds
  | invalidKeyIndex
  deriving DecidableEq, Repr

/-- The code of an error (R105). -/
def ExecError.code : ExecError → BitVec 3
  | .unknownOpcode => 1
  | .stackOverflow => 2
  | .stackUnderflow => 3
  | .invalidFontIndex => 4
  | .memoryOutOfBounds => 5
  | .invalidKeyIndex => 6

/-- `return` to the host (R36). -/
def State.withResult (s : State) (r : OpResult) : State := { s with host := { s.host with result := r } }

/-- The error entry of R107, from the state before the step's first write: STATUS and the error record are
written, PC still points at the instruction, and control goes nowhere. -/
def State.raise (s : State) (e : ExecError) (op addr : Word) : State :=
  { s with
    status := .halted
    errCode := e.code
    errPc := s.pc
    errOp := op
    errAddr := addr
    host := { s.host with result := .error e.code } }

/-- MemoryOutOfBounds for an access range that starts at `a` (R43, R105). -/
def State.raiseBounds (s : State) (op : Word) (a : Nat) : State :=
  s.raise .memoryOutOfBounds op (rangeErrAddr a)

/-- The part of an image that LOAD loads: none when the image is too large and the policy rejects it (R119). -/
def acceptedImage (c : Config) (image : List Byte) : Option (List Byte) :=
  if imageFits image then some image
  else
    match c.oversizePolicy with
    | .reject => none
    | .truncate => some (image.take maxProg)

/-- The state a successful LOAD leaves (R38, R119). -/
def State.loaded (s : State) (image : List Byte) : State :=
  { v := Vector.replicate 16 0
    i := 0
    pc := 0x200
    stack := Vector.replicate 16 0
    sp := 0
    dt := 0
    st := 0
    div := s.config.cyclesPerTick
    fb := Vector.replicate 32 0
    status := .ready
    errCode := 0
    errPc := 0
    errOp := 0
    errAddr := 0
    mem := Memory.image s.config progBase image
    config := s.config
    host := { s.host with result := .ok } }

/-- LOAD(image) (R119, R120): accepted in every STATUS, and the only way out of HALTED (R108). No instruction
returns from an error. A rejected LOAD changes nothing of the core. -/
def State.load (s : State) (image : List Byte) : State :=
  match acceptedImage s.config image with
  | some bytes => s.loaded bytes
  | none => s.withResult .loadTooLarge

/-! ### The divider and the timers (R113) -/

/-- DIV can count down: it is not 0, as it never is between steps (R28, R32). -/
def State.dividerOk (s : State) : Bool := decide (1 ≤ s.div)

/-- A timer's decrement, which saturates at 0 (R27). -/
def tickDown (t : Byte) : Byte := if t = 0 then 0 else t - 1

/-- Whether this step is a tick: the divider reaches zero in it (R113). -/
def State.ticks (s : State) : Bool := s.div - 1 == 0

/-- DivAdvance (R113), for a DIV that is not 0. -/
def State.divAdvance (s : State) : State :=
  { s with
    div := if s.ticks then s.config.cyclesPerTick else s.div - 1
    dt := if s.ticks then tickDown s.dt else s.dt
    st := if s.ticks then tickDown s.st else s.st }

/-- The end of a step (R37): a step that raised returns its error and skips the divider advance (R106); any
other advances the divider and returns OK. -/
def State.retire (s : State) : Result :=
  if s.status = .halted then .next s
  else if s.dividerOk then .next (s.divAdvance.withResult .ok)
  else .fault .dividerZero

/-! ### The host's operations (R36) -/

/-- The STEP inputs for the step about to run: those the host has queued, else free values (R34, R35). -/
def HostPort.takeInputs (p : HostPort) : HostPort :=
  match p.pending with
  | .step key rnd :: rest => { p with pending := rest, key := key, rnd := rnd }
  | _ =>
    { p with
      key := Config.freeKey p.freeSteps
      rnd := Config.freeRnd p.freeSteps
      freeSteps := p.freeSteps + 1 }

/-- The step about to run latches its inputs. -/
def State.takeInputs (s : State) : State := { s with host := s.host.takeInputs }

/-- The image of a LOAD that is the host's next operation. -/
def State.pendingLoad (s : State) : Option (List Byte) :=
  match s.host.pending with
  | .load image :: _ => some image
  | _ => none

/-- The host's next operation leaves its queue. -/
def State.popPending (s : State) : State := { s with host := { s.host with pending := s.host.pending.tail } }

/-! ### The outputs (R36) -/

/-- `FB(c, r)`: 1, lit, or 0, unlit; off the grid nothing is lit (R29). -/
def Framebuffer.pixel (fb : Framebuffer) (c r : Nat) : Bool :=
  if h : r < fbHeight then fb[r].getMsbD c else false

/-- The framebuffer read port, one pixel (R36). -/
def State.pixel (s : State) (c r : Nat) : Bool := Framebuffer.pixel s.fb c r

/-- The packed framebuffer read port (R92): row r, its bit 63 column 0. -/
def State.packedRow (s : State) (r : Fin 32) : BitVec 64 := s.fb[r]

/-- The sound output (R36). -/
def State.soundOutput (s : State) : Byte := s.st

/-- The status output (R36): STATUS and ERR_CODE, ERR_PC, ERR_OP, ERR_ADDR. -/
def State.statusOutput (s : State) : Status × BitVec 3 × Word × Word × Word :=
  (s.status, s.errCode, s.errPc, s.errOp, s.errAddr)

end Sys2Proof.Machine
end

