-- ==== Sys2Proof/Machine/Alu.lean ====
section
/-! DEFINITION. Register and arithmetic instructions (41_alu.md). Each statement of a rule reads the state as
the statements before it left it (R14), which decides the results when x or y is F. -/

namespace Sys2Proof.Machine

/-- The shape of 8xy5, 8xy6, 8xy7 and 8xyE: VF is written first, then V[x] is computed from the registers as the
flag's write left them (R14). -/
def State.flagThenResult (s : State) (x : RegIdx) (flag : Byte) (result : State → Byte) : State :=
  ((s.setFlag flag).setReg x (result (s.setFlag flag))).advance

/-- LD Vx, byte, 6xnn (R73). -/
def execLdImm (x : RegIdx) (nn : Byte) (s : State) : Result := .next (s.setReg x nn).advance

/-- ADD Vx, byte, 7xnn (R74): no flag. -/
def execAddImm (x : RegIdx) (nn : Byte) (s : State) : Result :=
  .next (s.setReg x (trunc8 ((s.reg x).toNat + nn.toNat))).advance

/-- LD Vx, Vy, 8xy0 (R75). -/
def execLdReg (x y : RegIdx) (s : State) : Result := .next (s.setReg x (s.reg y)).advance

/-- OR Vx, Vy, 8xy1 (R76). -/
def execOr (x y : RegIdx) (s : State) : Result := .next (s.setReg x (s.reg x ||| s.reg y)).advance

/-- AND Vx, Vy, 8xy2 (R77). -/
def execAnd (x y : RegIdx) (s : State) : Result := .next (s.setReg x (s.reg x &&& s.reg y)).advance

/-- XOR Vx, Vy, 8xy3 (R78). -/
def execXor (x y : RegIdx) (s : State) : Result := .next (s.setReg x (s.reg x ^^^ s.reg y)).advance

/-- ADD Vx, Vy, 8xy4 (R79): the sum is taken first, VF is written only on a carry, V[x] last. -/
def execAddReg (x y : RegIdx) (s : State) : Result :=
  let flagged := if addCarries (s.reg x) (s.reg y) then s.setFlag 1 else s
  .next (flagged.setReg x (trunc8 ((s.reg x).toNat + (s.reg y).toNat))).advance

/-- SUB Vx, Vy, 8xy5 (R80). -/
def execSub (x y : RegIdx) (s : State) : Result :=
  .next (s.flagThenResult x (noBorrow (s.reg x) (s.reg y)) fun t => t.reg x - t.reg y)

/-- SHR Vx, 8xy6 (R81); the y field has no effect (R60). -/
def execShr (x _y : RegIdx) (s : State) : Result :=
  .next (s.flagThenResult x (shiftedOutRight (s.reg x)) fun t => t.reg x >>> 1)

/-- SUBN Vx, Vy, 8xy7 (R82). -/
def execSubn (x y : RegIdx) (s : State) : Result :=
  .next (s.flagThenResult x (noBorrow (s.reg y) (s.reg x)) fun t => t.reg y - t.reg x)

/-- SHL Vx, 8xyE (R83); the y field has no effect (R60). -/
def execShl (x _y : RegIdx) (s : State) : Result :=
  .next (s.flagThenResult x (shiftedOutLeft (s.reg x)) fun t => t.reg x <<< 1)

/-- RND Vx, byte, Cxnn (R84): RND is the step's random byte (R35). -/
def execRnd (x : RegIdx) (nn : Byte) (s : State) : Result := .next (s.setReg x (s.host.rnd &&& nn)).advance

end Sys2Proof.Machine
end

