-- ==== Sys2Proof/Machine/Display.lean ====
section
/-! DEFINITION. Display instructions and the framebuffer controller (43_display.md). -/

namespace Sys2Proof.Machine

/-- The framebuffer while a sprite is drawn, and whether a collision has happened (`hit` of R94). -/
structure Canvas where
  fb : Framebuffer
  hit : Bool
  deriving DecidableEq, Repr

/-- `FB(c, r) <- FB(c, r) ^ 1`, for a pixel on the grid. -/
def Framebuffer.toggle (fb : Framebuffer) (c r : Nat) : Framebuffer :=
  if h : r < fbHeight then fb.set r (fb[r] ^^^ (1#64 <<< (63 - c))) else fb

/-- A sprite bit of 1 drawn at column `px`, row `py`: off the grid it is skipped (R95), on a lit pixel it is a
collision (R96). -/
def Canvas.drawPixel (d : Canvas) (px py : Nat) : Canvas :=
  if px < fbWidth ∧ py < fbHeight then
    { fb := Framebuffer.toggle d.fb px py, hit := d.hit || Framebuffer.pixel d.fb px py }
  else d

/-- The columns `cs` of one sprite row: `row[7 - c]` is drawn at column `cx + c` (R94). -/
def Canvas.drawColumns (d : Canvas) (row : Byte) (cx py : Nat) : List Nat → Canvas
  | [] => d
  | c :: cs =>
    (if row.getLsbD (7 - c) then d.drawPixel (cx + c) py else d).drawColumns row cx py cs

/-- The rows of a sprite, the first at row `py` (R94). -/
def Canvas.drawRows (d : Canvas) (cx py : Nat) : List Byte → Canvas
  | [] => d
  | row :: rows => (d.drawColumns row cx py (List.range 8)).drawRows cx (py + 1) rows

/-- CLS, 00E0 (R93). -/
def execCls (s : State) : Result := .next ({ s with fb := Vector.replicate 32 0 }).advance

/-- DRW Vx, Vy, nibble, Dxyn (R94): both coordinates are read before any write. -/
def execDrw (x y : RegIdx) (n : Nibble) (s : State) : Result :=
  match s.loadBytes s.i.toNat n.toNat with
  | some rows =>
    let d := (Canvas.mk s.fb false).drawRows (s.reg x).toNat (s.reg y).toNat rows
    .next (({ s with fb := d.fb }).setFlag (flagByte d.hit)).advance
  | none => .next (s.raiseBounds (encode (.drw x y n)) s.i.toNat)

end Sys2Proof.Machine
end

