-- ==== Sys2Proof/Machine/Flow.lean ====
section
/-! DEFINITION. Control transfer and skips (40_flow.md). -/

namespace Sys2Proof.Machine

/-- RET, 00EE (R65). -/
def execRet (s : State) : Result :=
  match s.pop with
  | some (ra, t) => .next (t.jump ra)
  | none => .next (s.raise .stackUnderflow (encode .ret) 0)

/-- JP addr, 1nnn (R66). -/
def execJp (nnn : Addr) (s : State) : Result := .next (s.jump (zext16 nnn))

/-- CALL addr, 2nnn (R67). -/
def execCall (nnn : Addr) (s : State) : Result :=
  match s.push (s.pc + 2) with
  | some t => .next (t.jump (zext16 nnn))
  | none => .next (s.raise .stackOverflow (encode (.call nnn)) 0)

/-- SE Vx, byte, 3xnn (R68). -/
def execSeImm (x : RegIdx) (nn : Byte) (s : State) : Result := .next (s.skipIf (s.reg x == nn))

/-- SNE Vx, byte, 4xnn (R69). -/
def execSneImm (x : RegIdx) (nn : Byte) (s : State) : Result := .next (s.skipIf (s.reg x != nn))

/-- SE Vx, Vy, 5xy0 (R70). -/
def execSeReg (x y : RegIdx) (s : State) : Result := .next (s.skipIf (s.reg x == s.reg y))

/-- SNE Vx, Vy, 9xy0 (R71). -/
def execSneReg (x y : RegIdx) (s : State) : Result := .next (s.skipIf (s.reg x != s.reg y))

end Sys2Proof.Machine
end

