-- ==== Sys2Proof/Machine/Index.lean ====
section
/-! DEFINITION. Index register and memory instructions (42_index_memory.md). Every check comes before the first
write (R15), and no access changes I (R85). -/

namespace Sys2Proof.Machine

/-- LD I, addr, Annn (R86). -/
def execLdI (nnn : Addr) (s : State) : Result := .next ({ s with i := zext16 nnn }).advance

/-- ADD I, Vx, Fx1E (R87): no flag. -/
def execAddI (x : RegIdx) (s : State) : Result :=
  .next ({ s with i := trunc16 (s.i.toNat + (s.reg x).toNat) }).advance

/-- LD F, Vx, Fx29 (R88): V[x] is not masked. -/
def execLdF (x : RegIdx) (s : State) : Result :=
  if (s.reg x).toNat > 0xF then .next (s.raise .invalidFontIndex (encode (.ldF x)) 0)
  else .next ({ s with i := trunc16 (5 * (s.reg x).toNat) }).advance

/-- The three decimal digits of a byte, hundreds first (R89). -/
def bcdDigits (v : Byte) : List Byte :=
  [trunc8 (v.toNat / 100), trunc8 (v.toNat / 10 % 10), trunc8 (v.toNat % 10)]

/-- LD B, Vx, Fx33 (R89). -/
def execLdB (x : RegIdx) (s : State) : Result :=
  match s.storeBytes s.i.toNat (bcdDigits (s.reg x)) with
  | some t => .next t.advance
  | none => .next (s.raiseBounds (encode (.ldB x)) s.i.toNat)

/-- LD [I], Vx, Fx55 (R90). -/
def execLdStore (x : RegIdx) (s : State) : Result :=
  match s.storeBytes s.i.toNat (s.regsUpTo x) with
  | some t => .next t.advance
  | none => .next (s.raiseBounds (encode (.ldStore x)) s.i.toNat)

/-- LD Vx, [I], Fx65 (R91). -/
def execLdLoad (x : RegIdx) (s : State) : Result :=
  match s.loadBytes s.i.toNat (x.val + 1) with
  | some bytes => .next (s.putRegs 0 bytes).advance
  | none => .next (s.raiseBounds (encode (.ldLoad x)) s.i.toNat)

end Sys2Proof.Machine
end

