-- ==== Sys2Proof/Machine/Keypad.lean ====
section
/-! DEFINITION. Keypad and timer instructions (44_keypad_timers.md). -/

namespace Sys2Proof.Machine

/-- SKP Vx, Ex9E (R98). -/
def execSkp (x : RegIdx) (s : State) : Result :=
  if (s.reg x).toNat > 0xF then .next (s.raise .invalidKeyIndex (encode (.skp x)) 0)
  else .next (s.skipIf (s.keyPressed (s.reg x).toNat))

/-- SKNP Vx, ExA1 (R99). -/
def execSknp (x : RegIdx) (s : State) : Result :=
  if (s.reg x).toNat > 0xF then .next (s.raise .invalidKeyIndex (encode (.sknp x)) 0)
  else .next (s.skipIf (!s.keyPressed (s.reg x).toNat))

/-- LD Vx, DT, Fx07 (R100). -/
def execLdVxDt (x : RegIdx) (s : State) : Result := .next (s.setReg x s.dt).advance

/-- What LD Vx, K leaves: with no key pressed the step changes nothing, PC included, so the next step fetches
the same instruction (R101). -/
def State.afterKeyWait (s : State) (x : RegIdx) : State :=
  { s with
    v := match s.lowestKey with
      | none => s.v
      | some k => (s.setReg x (trunc8 k)).v
    pc := match s.lowestKey with
      | none => s.pc
      | some _ => s.pc + 2 }

/-- LD Vx, K, Fx0A (R101). -/
def execLdVxK (x : RegIdx) (s : State) : Result := .next (s.afterKeyWait x)

/-- LD DT, Vx, Fx15 (R102). -/
def execLdDtVx (x : RegIdx) (s : State) : Result := .next ({ s with dt := s.reg x }).advance

/-- LD ST, Vx, Fx18 (R103). -/
def execLdStVx (x : RegIdx) (s : State) : Result := .next ({ s with st := s.reg x }).advance

end Sys2Proof.Machine
end

