-- ==== Sys2Proof/Machine/Cycle.lean ====
section
/-! DEFINITION. One STEP (R37), one operation of the host (R36), and placing an instruction for the next step. -/

namespace Sys2Proof.Machine

/-- Decode and execute a fetched word (R37): a word that decodes to nothing raises UnknownOpcode (R59). -/
def State.runWord (s : State) (w : Word) : Result :=
  match decode w with
  | .unknownOpcode op => .next (s.raise .unknownOpcode op 0)
  | .instr i =>
    match exec i s with
    | .next t => t.retire
    | .fault r => .fault r
    | .refused r => .refused r

/-- The fetch-decode-execute cycle of a READY core (R37, R106). -/
def State.cycle (s : State) : Result :=
  match s.fetch with
  | none => .next (s.raiseBounds 0 s.pc.toNat)
  | some w => s.runWord w

/-- STEP(KEY, RND) with the inputs already latched (R37): refused in UNLOADED (R121), and in HALTED it returns
the recorded error again and changes nothing of the core (R108). -/
def State.stepOp (s : State) : Result :=
  match s.status with
  | .unloaded => .refused .notLoaded
  | .halted => .next (s.withResult (.error s.errCode))
  | .ready => s.cycle

/-- The host's next operation: a LOAD if that is what it has asked for next, else a STEP (R36, R123). -/
def State.nextOp (s : State) : Result :=
  match s.pendingLoad with
  | some image => .next (s.popPending.load image)
  | none => s.takeInputs.stepOp

/-- Drop the LOADs at the head of the queue, so that the next operation is a STEP. -/
def dropLoads : List HostOp → List HostOp
  | .load _ :: rest => dropLoads rest
  | ops => ops

/-- The two bytes of a word at PC and PC + 1, high byte first (R45), in a core whose next operation is a STEP:
STATUS is READY, no LOAD comes first, and a PC from which no fetch can succeed (R44) is put at PROG_BASE. -/
def State.placeWord (s : State) (w : Word) : State :=
  let pc : Word := if s.pc.toNat + 1 < memSize then s.pc else 0x200
  let t : State :=
    { s with pc := pc, status := .ready, host := { s.host with pending := dropLoads s.host.pending } }
  (t.writeByte pc.toNat (firstByte w)).writeByte (pc.toNat + 1) (secondByte w)

end Sys2Proof.Machine
end

