-- ==== Sys2Proof/Machine/Step.lean ====
section
/-! DEFINITION. The step function: one operation of the host on the core (R36, R37, R48). -/

namespace Sys2Proof.Machine

/-- One atomic transaction (R36, R48). -/
def step (s : State) : Host.Outcome State Fault Refusal := s.nextOp

/-- `s` with the instruction whose bits the opcode table numbers `w` stored where the next step fetches it
(log entry 7). -/
def State.withFetchWord (s : State) (nbits w : Nat) : State := s.placeWord (tableWord nbits w)

end Sys2Proof.Machine
end

