-- ==== Sys2Proof/Safety.lean ====
section
/-! DEFINITION. The terms claims are stated in: what a step leaves unchanged, what an error entry is, and the
invariant of the machine. -/

namespace Sys2Proof.Machine

/-! ### Frames -/

/-- A part of the state that an instruction may write beside PC. -/
inductive Part where
  /-- V[x]. -/
  | reg (x : RegIdx)
  /-- V[0] to V[x]. -/
  | regsTo (x : RegIdx)
  /-- I. -/
  | index
  /-- The stack and SP. -/
  | stack
  /-- DT. -/
  | delay
  /-- ST. -/
  | sound
  /-- The framebuffer. -/
  | display
  /-- The `n` bytes of MEM from address `a` on. -/
  | bytes (a n : Nat)
  deriving DecidableEq, Repr

/-- From `s` to `t` nothing is changed but PC and the listed parts: every other register, I, the stack, the
timers, the framebuffer and every other byte of MEM are as before, and so are DIV, STATUS, the error record, the
parameters and the host's port, which no instruction that runs to its end writes. -/
def ChangesOnly (s t : State) (ps : List Part) : Prop :=
  (∀ r, Part.reg r ∉ ps → (∀ x, Part.regsTo x ∈ ps → x < r) → t.reg r = s.reg r) ∧
  (Part.index ∉ ps → t.i = s.i) ∧
  (Part.stack ∉ ps → t.stack = s.stack ∧ t.sp = s.sp) ∧
  (Part.delay ∉ ps → t.dt = s.dt) ∧
  (Part.sound ∉ ps → t.st = s.st) ∧
  (Part.display ∉ ps → t.fb = s.fb) ∧
  (∀ a, (∀ b n, Part.bytes b n ∈ ps → a < b ∨ b + n ≤ a) → t.readByte a = s.readByte a) ∧
  t.div = s.div ∧ t.status = s.status ∧
  t.errCode = s.errCode ∧ t.errPc = s.errPc ∧ t.errOp = s.errOp ∧ t.errAddr = s.errAddr ∧
  t.config = s.config ∧ t.host = s.host

/-- The parts an instruction may write, from the tables of R18, R19, R21 and R47 and the instructions' rules. -/
def partsWritten (s : State) : Instr → List Part
  | .cls => [.display]
  | .ret | .call _ => [.stack]
  | .jp _ | .seImm _ _ | .sneImm _ _ | .seReg _ _ | .sneReg _ _ | .skp _ | .sknp _ => []
  | .ldImm x _ | .addImm x _ | .ldReg x _ | .orReg x _ | .andReg x _ | .xorReg x _ => [.reg x]
  | .rnd x _ | .ldVxDt x | .ldVxK x => [.reg x]
  | .addReg x _ | .sub x _ | .shr x _ | .subn x _ | .shl x _ => [.reg x, .reg VF]
  | .ldI _ | .addI _ | .ldF _ => [.index]
  | .drw _ _ _ => [.display, .reg VF]
  | .ldDtVx _ => [.delay]
  | .ldStVx _ => [.sound]
  | .ldB _ => [.bytes s.i.toNat 3]
  | .ldStore x => [.bytes s.i.toNat (x.val + 1)]
  | .ldLoad x => [.regsTo x]

/-! ### Errors -/

/-- The core's state beside STATUS and the error record is the same: what R107 says a raising step leaves. -/
def SameCore (s t : State) : Prop :=
  t.v = s.v ∧ t.i = s.i ∧ t.pc = s.pc ∧ t.stack = s.stack ∧ t.sp = s.sp ∧ t.dt = s.dt ∧ t.st = s.st ∧
  t.div = s.div ∧ t.fb = s.fb ∧ (∀ a, t.readByte a = s.readByte a) ∧ t.config = s.config

/-- From `s` to `t` the error with this code was taken (R107): STATUS and the record are written, the error goes to
the host, and nothing else of the core is changed. -/
def EntersError (s t : State) (code : BitVec 3) (op addr : Word) : Prop :=
  t.status = .halted ∧ t.errCode = code ∧ t.errPc = s.pc ∧ t.errOp = op ∧ t.errAddr = addr ∧
  t.host.result = .error code ∧ SameCore s t

/-- MemoryOutOfBounds for a range that starts at I: code 5, and ERR_ADDR the larger of I and 0x1000 (R105). -/
def boundsErrorAtI (s : State) : BitVec 3 × Word := (5, BitVec.ofNat 16 (max s.i.toNat 0x1000))

/-- The error an instruction's own check raises in a state, as its code and ERR_ADDR, from the causes of R105; none
where it raises nothing. Fetch and decode raise theirs before an instruction runs (R106). -/
def errorOf (s : State) : Instr → Option (BitVec 3 × Word)
  | .call _ => if s.sp.val = 16 then some (2, 0) else none
  | .ret => if s.sp.val = 0 then some (3, 0) else none
  | .ldF x => if 0xF < (s.reg x).toNat then some (4, 0) else none
  | .drw _ _ n => if n ≠ 0 ∧ 4096 ≤ s.i.toNat + n.toNat - 1 then some (boundsErrorAtI s) else none
  | .ldB _ => if 4096 ≤ s.i.toNat + 2 then some (boundsErrorAtI s) else none
  | .ldStore x | .ldLoad x => if 4096 ≤ s.i.toNat + x.val then some (boundsErrorAtI s) else none
  | .skp x | .sknp x => if 0xF < (s.reg x).toNat then some (6, 0) else none
  | .cls | .jp _ | .seImm _ _ | .sneImm _ _ | .seReg _ _ | .sneReg _ _ => none
  | .ldImm _ _ | .addImm _ _ | .ldReg _ _ | .orReg _ _ | .andReg _ _ | .xorReg _ _ => none
  | .addReg _ _ | .sub _ _ | .shr _ _ | .subn _ _ | .shl _ _ | .ldI _ | .rnd _ _ => none
  | .ldVxDt _ | .ldVxK _ | .ldDtVx _ | .ldStVx _ | .addI _ => none

/-- STATUS and the error record are the same. -/
def SameStatus (s t : State) : Prop :=
  t.status = s.status ∧ t.errCode = s.errCode ∧ t.errPc = s.errPc ∧ t.errOp = s.errOp ∧ t.errAddr = s.errAddr

/-! ### Sprites -/

/-- The sprite of `n` rows at MEM[I] that Dxyn draws at column `cx` and row `cy` has a bit of 1 on the pixel at
column `c` and row `r`: bit 7 - (c - cx) of the byte at I + (r - cy) (R94). -/
def spriteBit (s : State) (cx cy n c r : Nat) : Bool :=
  decide (cx ≤ c ∧ c < cx + 8 ∧ cy ≤ r ∧ r < cy + n) &&
    (s.readByte (s.i.toNat + (r - cy))).getLsbD (7 - (c - cx))

/-! ### Stores -/

/-- What the byte at address `a` reads as once `n` bytes, the k-th being `stored k`, lie from I upward: the stored byte
inside that range, and the byte of before outside it. -/
def overlaid (s : State) (n : Nat) (stored : Nat → Byte) (a : Nat) : Byte :=
  if s.i.toNat ≤ a ∧ a < s.i.toNat + n then stored (a - s.i.toNat) else s.readByte a

/-! ### Runs -/

/-- The host has asked for no LOAD among its queued operations. -/
def NoLoadPending (s : State) : Prop := ∀ image, HostOp.load image ∉ s.host.pending

/-! ### The invariant -/

/-- DIV is in 1 to CYCLES_PER_TICK between steps (R28, R32). -/
def State.DividerInRange (s : State) : Prop := 1 ≤ s.div ∧ s.div ≤ s.config.cyclesPerTick

/-- Every PC the core can reach lies in 0x000 to 0x1002, and every return address on the stack is at most 0x1000 (R23). -/
def State.AddressesInRange (s : State) : Prop :=
  s.pc.toNat ≤ 0x1002 ∧ ∀ j : Fin 16, s.stack[j].toNat ≤ 0x1000

/-- The error record is all 0 in READY. In HALTED it holds a code from 1 to 6, ERR_PC is PC, and ERR_ADDR is an
address outside MEM for MemoryOutOfBounds and 0 for every other error (R31, R105, R107). -/
def State.RecordConsistent (s : State) : Prop :=
  (s.status = .ready → s.errCode = 0 ∧ s.errPc = 0 ∧ s.errOp = 0 ∧ s.errAddr = 0) ∧
  (s.status = .halted →
    1 ≤ s.errCode.toNat ∧ s.errCode.toNat ≤ 6 ∧ s.errPc = s.pc ∧
    (s.errCode = 5 → 0x1000 ≤ s.errAddr.toNat) ∧ (s.errCode ≠ 5 → s.errAddr = 0))

/-- The machine's invariant: the parameter CYCLES_PER_TICK is legal and, once a program has been loaded, MEM is in
its canonical form and DIV, PC, the stack and the error record are in their ranges. Before the first LOAD nothing
else is asked, since every piece of state is then unspecified (R121). -/
def State.Inv (s : State) : Prop :=
  s.config.WellFormed = true ∧
  (s.status ≠ .unloaded →
    Memory.wf s.config s.mem = true ∧ s.DividerInRange ∧ s.AddressesInRange ∧ s.RecordConsistent)

end Sys2Proof.Machine
end

