-- ==== Sys2Proof/Certificates/Slice0/Obligations.lean ====
section
/-! DEFINITION. The statements for the provers: what the rules of the spec say the machine does. Each statement about
one instruction is about `exec`, the instruction's own effect before the divider advance (R37); the statements about
`step` say what a STEP adds around it. -/

open Sys2Proof Sys2Proof.Machine

/-! ### Encoding and decoding (30_encoding.md) -/

/-- 30_encoding.md sections 1 to 4: decoding the word of an instruction gives the instruction back, for every instruction
and every operand, the unused y field of 8xy6 and 8xyE included (the spec derives in R60 that it takes any value). -/
def Obligations.DecodeOfEncodeIsInstruction : Prop :=
  ∀ i : Instr, decode (encode i) = .instr i

/-- 30_encoding.md section 3: a word has one meaning, so the word an instruction was decoded from is the word it encodes to
(the spec derives in R57 that no two rows of the opcode map overlap). -/
def Obligations.EncodeOfDecodeIsWord : Prop :=
  ∀ (w : Word) (i : Instr), decode w = .instr i → encode i = w

/-- 30_encoding.md section 3: a word selects an instruction exactly when `op & mask == match` for that row of R58, and
otherwise decode raises UnknownOpcode; no two rows overlap, as the spec derives in R57. -/
def Obligations.DecodeFollowsOpcodeMap : Prop :=
  ∀ w : Word,
    (∀ r ∈ opcodeRows, r.selects w = true ↔ ∃ i, decode w = .instr i ∧ i.mnemonic = r.mnemonic) ∧
    (decode w = .unknownOpcode w ↔ ∀ r ∈ opcodeRows, r.selects w = false) ∧
    (∀ r ∈ opcodeRows, ∀ q ∈ opcodeRows, r.selects w = true → q.selects w = true → r = q)

/-- 30_encoding.md section 1 and the "Encoding" line of every instruction's rule: the word of every instruction is the
number given there, such as `0x3000 | x<<8 | nn` for 3xnn. -/
def Obligations.EncodeGivesRulesWords : Prop :=
  ∀ (x y : RegIdx) (n : Nibble) (nn : Byte) (nnn : Addr),
    let X := 256 * x.val
    let Y := 16 * y.val
    (encode .cls).toNat = 0x00E0 ∧ (encode .ret).toNat = 0x00EE ∧
    (encode (.jp nnn)).toNat = 0x1000 + nnn.toNat ∧ (encode (.call nnn)).toNat = 0x2000 + nnn.toNat ∧
    (encode (.seImm x nn)).toNat = 0x3000 + X + nn.toNat ∧ (encode (.sneImm x nn)).toNat = 0x4000 + X + nn.toNat ∧
    (encode (.seReg x y)).toNat = 0x5000 + X + Y ∧ (encode (.ldImm x nn)).toNat = 0x6000 + X + nn.toNat ∧
    (encode (.addImm x nn)).toNat = 0x7000 + X + nn.toNat ∧ (encode (.ldReg x y)).toNat = 0x8000 + X + Y ∧
    (encode (.orReg x y)).toNat = 0x8001 + X + Y ∧ (encode (.andReg x y)).toNat = 0x8002 + X + Y ∧
    (encode (.xorReg x y)).toNat = 0x8003 + X + Y ∧ (encode (.addReg x y)).toNat = 0x8004 + X + Y ∧
    (encode (.sub x y)).toNat = 0x8005 + X + Y ∧ (encode (.shr x y)).toNat = 0x8006 + X + Y ∧
    (encode (.subn x y)).toNat = 0x8007 + X + Y ∧ (encode (.shl x y)).toNat = 0x800E + X + Y ∧
    (encode (.sneReg x y)).toNat = 0x9000 + X + Y ∧ (encode (.ldI nnn)).toNat = 0xA000 + nnn.toNat ∧
    (encode (.rnd x nn)).toNat = 0xC000 + X + nn.toNat ∧
    (encode (.drw x y n)).toNat = 0xD000 + X + Y + n.toNat ∧
    (encode (.skp x)).toNat = 0xE09E + X ∧ (encode (.sknp x)).toNat = 0xE0A1 + X ∧
    (encode (.ldVxDt x)).toNat = 0xF007 + X ∧ (encode (.ldVxK x)).toNat = 0xF00A + X ∧
    (encode (.ldDtVx x)).toNat = 0xF015 + X ∧ (encode (.ldStVx x)).toNat = 0xF018 + X ∧
    (encode (.addI x)).toNat = 0xF01E + X ∧ (encode (.ldF x)).toNat = 0xF029 + X ∧
    (encode (.ldB x)).toNat = 0xF033 + X ∧ (encode (.ldStore x)).toNat = 0xF055 + X ∧
    (encode (.ldLoad x)).toNat = 0xF065 + X

/-- 30_encoding.md sections 1, 3 and 4: words written out bit by bit from the bit strings of R55, at least one of each
family, decode to the instruction they stand for, and words the spec calls illegal are rejected by name. -/
def Obligations.WrittenOutWordsDecode : Prop :=
  decode 0b0000000011100000 = .instr .cls ∧
  decode 0b0010101010111100 = .instr (.call 0xABC) ∧
  decode 0b0011101001000010 = .instr (.seImm 0xA 0x42) ∧
  decode 0b1001000100100000 = .instr (.sneReg 1 2) ∧
  decode 0b1000000100100100 = .instr (.addReg 1 2) ∧
  decode 0b1000010001011110 = .instr (.shl 4 5) ∧
  decode 0b1010001011110000 = .instr (.ldI 0x2F0) ∧
  decode 0b1101000100100101 = .instr (.drw 1 2 5) ∧
  decode 0b1110001010100001 = .instr (.sknp 2) ∧
  decode 0b1111001001010101 = .instr (.ldStore 2) ∧
  decode 0b1111010000001010 = .instr (.ldVxK 4) ∧
  decode 0b0000000000000000 = .unknownOpcode 0x0000 ∧
  decode 0b1011000100100011 = .unknownOpcode 0xB123 ∧
  decode 0b0101000100100001 = .unknownOpcode 0x5121

/-! ### One STEP (10_state.md R37, 60_exceptions.md) -/

/-- 10_state.md section 12: a STEP of a READY core runs the instruction that the two bytes at PC decode to, and then retires
it (`State.retire`: the divider advance of R113 and the result OK, or the error's result with no advance, decision D7).
The step first latches its inputs (`State.takeInputs`), which leaves the core as it is. -/
def Obligations.StepRunsDecodedInstruction : Prop :=
  ∀ (s : State) (i : Instr), s.status = .ready → s.pendingLoad = none → s.pc.toNat + 1 < 4096 →
    decode (wordOfBytes (s.readByte s.pc.toNat) (s.readByte (s.pc.toNat + 1))) = .instr i →
    ∀ t, exec i s.takeInputs = .next t → step s = t.retire

/-- 60_exceptions.md section 1 (decisions D5 to D7 for the errors and their record): no instruction stops the machine
without a next state. In every state each of the 33 either takes an error, exactly when the cause the error table of
R105 gives for it holds and with the code and the ERR_ADDR of that table (`errorOf`; none for the instructions the table
does not name), or completes with STATUS and the error record as they were, having written nothing but PC and the parts
listed for it in `partsWritten`. What it writes there is the subject of the statement about that instruction. -/
def Obligations.EveryInstructionAnswersNextState : Prop :=
  ∀ (i : Instr) (s : State), ∃ t, exec i s = .next t ∧
    (errorOf s i = none → ChangesOnly s t (partsWritten s i)) ∧
    (∀ code addr, errorOf s i = some (code, addr) → EntersError s t code (encode i) addr)

/-- 10_state.md sections 10 and 11 (decisions D17, D18): the inputs of a STEP are the KEY and RND the host supplies with it.
The queue they are supplied through, and the free values of a STEP for which none is queued, are the model's own (log
entry 4). Latching them leaves everything but the host's port as it was. -/
def Obligations.StepLatchesHostInputs : Prop :=
  ∀ s : State,
    s.takeInputs = { s with host := s.takeInputs.host } ∧
    (∀ key rnd rest, s.host.pending = .step key rnd :: rest →
      s.takeInputs.host.key = key ∧ s.takeInputs.host.rnd = rnd ∧ s.takeInputs.host.pending = rest) ∧
    (s.host.pending = [] →
      s.takeInputs.host.key = Config.freeKey s.host.freeSteps ∧
      s.takeInputs.host.rnd = Config.freeRnd s.host.freeSteps ∧
      s.takeInputs.host.freeSteps = s.host.freeSteps + 1)

/-- 60_exceptions.md section 3: at the end of a step that did not raise the divider advances: DIV counts down, and when it
reaches zero it is reloaded with CYCLES_PER_TICK and both timers are decremented, saturating at 0. Everything else is as
the instruction left it, and OK is returned. That a waiting Fx0A advances it too is decision D4. -/
def Obligations.RetireAdvancesDivider : Prop :=
  ∀ s : State, s.status ≠ .halted → 1 ≤ s.div →
    ∃ t, s.retire = .next t ∧ t.host.result = .ok ∧
      (s.div ≠ 1 → t.div = s.div - 1 ∧ t.dt = s.dt ∧ t.st = s.st) ∧
      (s.div = 1 → t.div = s.config.cyclesPerTick ∧
        t.dt.toNat = s.dt.toNat - 1 ∧ t.st.toNat = s.st.toNat - 1) ∧
      t.v = s.v ∧ t.i = s.i ∧ t.pc = s.pc ∧ t.stack = s.stack ∧ t.sp = s.sp ∧ t.fb = s.fb ∧
      (∀ a, t.readByte a = s.readByte a) ∧ SameStatus s t ∧ t.config = s.config

/-- 20_memory.md section 3 (Fetch): while PC + 1 is in MEM the fetched word has MEM[PC] as its high and MEM[PC + 1] as
its low byte. Otherwise the STEP raises MemoryOutOfBounds with ERR_OP 0 and ERR_ADDR the larger of PC and 0x1000; the
error's name and record are decisions D6 and D7 of 92_eei_decisions.md. -/
def Obligations.FetchIsBigEndianOrRaises : Prop :=
  ∀ s : State,
    (s.pc.toNat + 1 < 4096 → ∃ w, s.fetch = some w ∧
      w.toNat = 256 * (s.readByte s.pc.toNat).toNat + (s.readByte (s.pc.toNat + 1)).toNat) ∧
    (4096 ≤ s.pc.toNat + 1 → s.status = .ready → s.pendingLoad = none →
      ∃ t, step s = .next t ∧ EntersError s t 5 0 (BitVec.ofNat 16 (max s.pc.toNat 0x1000)))

/-- 30_encoding.md section 4: a STEP that fetches a word of no row of R58 raises UnknownOpcode; its record, with the word in
ERR_OP, is decision D7. -/
def Obligations.UnknownOpcodeRaises : Prop :=
  ∀ (s : State) (w : Word), s.status = .ready → s.pendingLoad = none → s.fetch = some w →
    decode w = .unknownOpcode w →
    ∃ t, step s = .next t ∧ EntersError s t 1 w 0

/-- 60_exceptions.md section 1 (decision D7): whatever error a STEP of a READY core raises, nothing the step would have
written is written: everything but STATUS and the error record is as before the step, DIV included, ERR_PC is PC, and
ERR_OP is the fetched word, or 0 if the fetch raised. -/
def Obligations.RaisingStepChangesOnlyRecord : Prop :=
  ∀ s t : State, s.status = .ready → s.pendingLoad = none → step s = .next t → t.status = .halted →
    EntersError s t t.errCode (s.fetch.getD 0) t.errAddr

/-- 70_reset_and_hazards.md section 1 (decision D14): a STEP in UNLOADED is refused and produces no state. -/
def Obligations.UnloadedStepIsRefused : Prop :=
  ∀ s : State, s.status = .unloaded → s.pendingLoad = none → step s = .refused .notLoaded

/-- 60_exceptions.md section 1 (decision D8): a STEP in HALTED returns the recorded error again and changes nothing: no
fetch, no divider advance, and the record is not overwritten. -/
def Obligations.HaltedStepChangesNothing : Prop :=
  ∀ s : State, s.status = .halted → s.pendingLoad = none →
    ∃ t, step s = .next t ∧ t.host.result = .error s.errCode ∧ SameCore s t ∧ SameStatus s t

/-- 60_exceptions.md section 1 (decision D8): HALTED is absorbing over any number of operations of which none is a LOAD. -/
def Obligations.HaltedIsAbsorbing : Prop :=
  ∀ (k : Nat) (s : State), s.status = .halted → NoLoadPending s →
    ∃ t, Sys2Proof.core.run k s = .next t ∧ SameCore s t ∧ SameStatus s t

/-! ### LOAD and reset (70_reset_and_hazards.md) -/

/-- 70_reset_and_hazards.md section 1 and 10_state.md section 13: a LOAD of an image that fits succeeds in every STATUS
(decisions D14, D19) and leaves every piece of state at its reset value: FONT_TABLE at 0x000, the image from 0x200 on, 0
in the rest of MEM, and an error record of 0 (decision D7). That the LOAD leaves the host's queue is log entry 4. -/
def Obligations.LoadLeavesResetValues : Prop :=
  ∀ (s : State) (image : List Byte), s.pendingLoad = some image → image.length ≤ 3584 →
    ∃ t, step s = .next t ∧ t.host.result = .ok ∧ t.host.pending = s.host.pending.tail ∧
      (∀ a, t.readByte a =
        if h : a < 80 then s.config.fontTable[a] else if a < 0x200 then 0 else (image[a - 0x200]?).getD 0) ∧
      (∀ r, t.reg r = 0) ∧ t.i = 0 ∧ t.pc = 0x200 ∧ t.sp = 0 ∧ (∀ j : Fin 16, t.stack[j] = 0) ∧
      t.dt = 0 ∧ t.st = 0 ∧ t.div = s.config.cyclesPerTick ∧ (∀ c r, t.pixel c r = false) ∧
      t.status = .ready ∧ t.errCode = 0 ∧ t.errPc = 0 ∧ t.errOp = 0 ∧ t.errAddr = 0 ∧ t.config = s.config

/-- 70_reset_and_hazards.md section 1 (decisions D16, D19): a LOAD of an image longer than 3584 bytes is rejected with
LOAD_TOO_LARGE and changes no state under REJECT, in every STATUS, and under TRUNCATE it is the LOAD of the first 3584
bytes. The host's queue that the LOAD comes from is log entry 4. -/
def Obligations.OversizeLoadFollowsPolicy : Prop :=
  ∀ (s : State) (image : List Byte), s.pendingLoad = some image → 3584 < image.length →
    (s.config.oversizePolicy = .reject →
      ∃ t, step s = .next t ∧ t.host.result = .loadTooLarge ∧ SameCore s t ∧ SameStatus s t) ∧
    (s.config.oversizePolicy = .truncate →
      step s = step { s with host := { s.host with pending := .load (image.take 3584) :: s.host.pending.tail } })

/-- 70_reset_and_hazards.md section 1: the model's reset (log entries 2, 3 and 5 name its parameters and its host port) is
the state a LOAD of an empty image leaves in a machine of those parameters, in whatever state, UNLOADED included, the
machine was. -/
def Obligations.ResetIsEmptyLoad : Prop :=
  ∀ s : State, s.config = Config.standard →
    (s.load []).host.result = .ok ∧ { (s.load []) with host := State.reset.host } = State.reset

/-! ### The invariant and whole-machine rules -/

/-- The invariant of the machine holds after reset (10_state.md section 13; the parameters are those of log entries 2 and
3). -/
def Obligations.ResetMeetsInvariant : Prop := State.reset.Inv

/-- 10_state.md sections 4, 7 and 9 (the ranges of PC and of the stack entries, of DIV and of the error record, which the
spec derives in R23 and R28 and decides in D7) and the canonical form of MEM (log entry 9): from every state that meets
the invariant, every operation of the host gives a state that meets it. -/
def Obligations.StepKeepsInvariant : Prop :=
  ∀ s t : State, s.Inv → step s = .next t → t.Inv

/-- 10_state.md sections 2 to 8 and 20_memory.md section 4, whose tables the spec derives from the instructions' rules: an
instruction that runs to its end, so that the core is still READY, writes PC and the parts listed for it in
`partsWritten` and nothing else. -/
def Obligations.InstructionsWriteOnlyTheirParts : Prop :=
  ∀ (i : Instr) (s t : State), s.status = .ready → exec i s = .next t → t.status = .ready →
    ChangesOnly s t (partsWritten s i)

/-- 60_exceptions.md section 1: only 2nnn, 00EE, Fx29, Dxyn, Fx33, Fx55, Fx65, Ex9E and ExA1 can raise; every other
instruction answers a next state with STATUS and the error record as they were. -/
def Obligations.OtherInstructionsNeverRaise : Prop :=
  ∀ (i : Instr) (s : State),
    i.mnemonic ∉ ["CALL", "RET", "LD_F", "DRW", "LD_B", "LD_store", "LD_load", "SKP", "SKNP"] →
    ∃ t, exec i s = .next t ∧ SameStatus s t

/-- 10_state.md section 10: only Ex9E, ExA1 and Fx0A read KEY: what any other instruction does does not depend on it. -/
def Obligations.OnlyKeyInstructionsReadKeypad : Prop :=
  ∀ (i : Instr) (s t : State) (key : BitVec 16), i.mnemonic ∉ ["SKP", "SKNP", "LD_Vx_K"] →
    exec i s = .next t →
    exec i { s with host := { s.host with key := key } } = .next { t with host := { t.host with key := key } }

/-- 10_state.md section 10 (RND as a step input is decision D17): only Cxnn reads RND: what any other instruction does does
not depend on it. -/
def Obligations.OnlyRndReadsRandomByte : Prop :=
  ∀ (i : Instr) (s t : State) (b : Byte), i.mnemonic ≠ "RND" →
    exec i s = .next t →
    exec i { s with host := { s.host with rnd := b } } = .next { t with host := { t.host with rnd := b } }

/-- 60_exceptions.md section 3: a STEP of a READY core that raises no error takes DIV to DIV - 1, or from 1 to
CYCLES_PER_TICK, whichever instruction it runs (a waiting Fx0A included, decision D4). -/
def Obligations.SuccessfulStepCountsDividerDown : Prop :=
  ∀ s t : State, s.status = .ready → s.pendingLoad = none → step s = .next t → t.status = .ready →
    t.div = if s.div = 1 then s.config.cyclesPerTick else s.div - 1

/-- 60_exceptions.md section 3, as the spec derives it in R114: counted in successful steps from a fresh divider, as a LOAD
leaves it, the ticks fall on the steps CYCLES_PER_TICK, 2 x CYCLES_PER_TICK and so on: after k steps, none of which
raised, DIV has counted k down modulo CYCLES_PER_TICK. -/
def Obligations.DividerTicksEveryCyclesPerTick : Prop :=
  ∀ (k : Nat) (s t : State), 1 ≤ s.config.cyclesPerTick → s.div = s.config.cyclesPerTick → NoLoadPending s →
    Sys2Proof.core.run k s = .next t → t.status = .ready →
    t.div = s.config.cyclesPerTick - k % s.config.cyclesPerTick

/-! ### Control transfer and skips (40_flow.md) -/

/-- 40_flow.md section 2 (RET): 00EE pops the return address into PC when the stack is not empty, and the popped entry
keeps its value (decision D12). With SP = 0 it raises StackUnderflow and changes nothing else (record: decision D7). -/
def Obligations.RetPopsReturnAddressOrRaises : Prop :=
  ∀ s : State,
    (∀ h : 0 < s.sp.val,
      ∃ t, exec .ret s = .next t ∧ t.pc = s.stack[s.sp.val - 1] ∧ t.sp.val = s.sp.val - 1 ∧ t.stack = s.stack ∧
        ChangesOnly s t [.stack]) ∧
    (s.sp.val = 0 → ∃ t, exec .ret s = .next t ∧ EntersError s t 3 0x00EE 0)

/-- R66: 1nnn sets PC to nnn, and nothing else changes. -/
def Obligations.JpSetsPc : Prop :=
  ∀ (nnn : Addr) (s : State), ∃ t, exec (.jp nnn) s = .next t ∧ t.pc.toNat = nnn.toNat ∧ ChangesOnly s t []

/-- 40_flow.md section 2 (CALL): 2nnn pushes PC + 2 and sets PC to nnn when the stack has room (layout: decision D12).
With SP = 16 it raises StackOverflow and changes nothing else (record: decision D7). -/
def Obligations.CallPushesReturnAddressOrRaises : Prop :=
  ∀ (nnn : Addr) (s : State),
    (∀ h : s.sp.val < 16,
      ∃ t, exec (.call nnn) s = .next t ∧ t.pc.toNat = nnn.toNat ∧ t.sp.val = s.sp.val + 1 ∧
        t.stack[s.sp.val] = s.pc + 2 ∧ (∀ j : Fin 16, j.val ≠ s.sp.val → t.stack[j] = s.stack[j]) ∧
        ChangesOnly s t [.stack]) ∧
    (s.sp.val = 16 →
      ∃ t, exec (.call nnn) s = .next t ∧ EntersError s t 2 (BitVec.ofNat 16 (0x2000 + nnn.toNat)) 0)

/-- 40_flow.md section 1: 2nnn then 00EE returns PC to the call-site + 2 and leaves the stack as deep as it was (its layout
is decision D12). -/
def Obligations.CallThenRetReturns : Prop :=
  ∀ (nnn : Addr) (s t : State), s.sp.val < 16 → exec (.call nnn) s = .next t →
    ∃ u, exec .ret t = .next u ∧ u.pc = s.pc + 2 ∧ u.sp = s.sp ∧ ChangesOnly s u [.stack]

/-- R68 to R71: the four register skips advance PC by 4 when their condition holds and by 2 when it does not, and
change nothing else. -/
def Obligations.RegisterSkipsAdvancePc : Prop :=
  ∀ (x y : RegIdx) (nn : Byte) (s : State),
    (∃ t, exec (.seImm x nn) s = .next t ∧ t.pc = s.pc + (if s.reg x = nn then 4 else 2) ∧ ChangesOnly s t []) ∧
    (∃ t, exec (.sneImm x nn) s = .next t ∧ t.pc = s.pc + (if s.reg x = nn then 2 else 4) ∧ ChangesOnly s t []) ∧
    (∃ t, exec (.seReg x y) s = .next t ∧ t.pc = s.pc + (if s.reg x = s.reg y then 4 else 2) ∧
      ChangesOnly s t []) ∧
    (∃ t, exec (.sneReg x y) s = .next t ∧ t.pc = s.pc + (if s.reg x = s.reg y then 2 else 4) ∧
      ChangesOnly s t [])

/-! ### Register and arithmetic instructions (41_alu.md) -/

/-- R73, R75: 6xnn and 8xy0 copy the immediate and V[y] into V[x]. -/
def Obligations.RegisterLoadsCopy : Prop :=
  ∀ (x y : RegIdx) (nn : Byte) (s : State),
    (∃ t, exec (.ldImm x nn) s = .next t ∧ t.reg x = nn ∧ t.pc = s.pc + 2 ∧ ChangesOnly s t [.reg x]) ∧
    (∃ t, exec (.ldReg x y) s = .next t ∧ t.reg x = s.reg y ∧ t.pc = s.pc + 2 ∧ ChangesOnly s t [.reg x])

/-- R74: 7xnn adds the immediate modulo 256; VF is not written unless x = F. -/
def Obligations.AddImmWrapsWithoutFlag : Prop :=
  ∀ (x : RegIdx) (nn : Byte) (s : State),
    ∃ t, exec (.addImm x nn) s = .next t ∧ (t.reg x).toNat = ((s.reg x).toNat + nn.toNat) % 256 ∧
      t.pc = s.pc + 2 ∧ ChangesOnly s t [.reg x]

/-- R76 to R78: 8xy1, 8xy2 and 8xy3 are the bitwise OR, AND and XOR, with VF not written unless x = F. -/
def Obligations.BitwiseOpsCombineRegisters : Prop :=
  ∀ (x y : RegIdx) (s : State),
    (∃ t, exec (.orReg x y) s = .next t ∧ t.reg x = s.reg x ||| s.reg y ∧ t.pc = s.pc + 2 ∧
      ChangesOnly s t [.reg x]) ∧
    (∃ t, exec (.andReg x y) s = .next t ∧ t.reg x = s.reg x &&& s.reg y ∧ t.pc = s.pc + 2 ∧
      ChangesOnly s t [.reg x]) ∧
    (∃ t, exec (.xorReg x y) s = .next t ∧ t.reg x = s.reg x ^^^ s.reg y ∧ t.pc = s.pc + 2 ∧
      ChangesOnly s t [.reg x])

/-- 41_alu.md section 3 (ADD): 8xy4 writes the sum modulo 256; VF becomes 1 on a carry and without one keeps its value
(90_conflicts.md C1); for x = F the sum is what VF holds in the end (decision D1). -/
def Obligations.AddRegSetsFlagOnCarryOnly : Prop :=
  ∀ (x y : RegIdx) (s : State),
    ∃ t, exec (.addReg x y) s = .next t ∧
      (t.reg x).toNat = ((s.reg x).toNat + (s.reg y).toNat) % 256 ∧
      (x ≠ VF → t.reg VF = if (s.reg x).toNat + (s.reg y).toNat > 255 then 1 else s.reg VF) ∧
      t.pc = s.pc + 2 ∧ ChangesOnly s t [.reg x, .reg VF]

/-- 41_alu.md section 3 (SUB): 8xy5 writes VF first, 1 exactly when V[x] > V[y], and then V[x] - V[y] modulo 256 from the
registers as that write left them. That order, which x = F and y = F show, is decision D1. -/
def Obligations.SubWritesFlagThenDifference : Prop :=
  ∀ (x y : RegIdx) (s : State),
    ∃ t, exec (.sub x y) s = .next t ∧
      (let flag : Byte := if (s.reg x).toNat > (s.reg y).toNat then 1 else 0
       (x ≠ VF → t.reg VF = flag) ∧
       (x ≠ VF → y ≠ VF → t.reg x = s.reg x - s.reg y) ∧
       (x ≠ VF → y = VF → t.reg x = s.reg x - flag) ∧
       (x = VF → y ≠ VF → t.reg x = flag - s.reg y) ∧
       (x = VF → y = VF → t.reg x = 0)) ∧
      t.pc = s.pc + 2 ∧ ChangesOnly s t [.reg x, .reg VF]

/-- 41_alu.md section 3 (SUBN): 8xy7 writes VF first, 1 exactly when V[y] > V[x], and then V[y] - V[x] modulo 256 from the
registers as that write left them. That order, which x = F and y = F show, is decision D1. -/
def Obligations.SubnWritesFlagThenDifference : Prop :=
  ∀ (x y : RegIdx) (s : State),
    ∃ t, exec (.subn x y) s = .next t ∧
      (let flag : Byte := if (s.reg y).toNat > (s.reg x).toNat then 1 else 0
       (x ≠ VF → t.reg VF = flag) ∧
       (x ≠ VF → y ≠ VF → t.reg x = s.reg y - s.reg x) ∧
       (x ≠ VF → y = VF → t.reg x = flag - s.reg x) ∧
       (x = VF → y ≠ VF → t.reg x = s.reg y - flag) ∧
       (x = VF → y = VF → t.reg x = 0)) ∧
      t.pc = s.pc + 2 ∧ ChangesOnly s t [.reg x, .reg VF]

/-- 41_alu.md section 3 (SHR): 8xy6 puts bit 0 of V[x] in VF and shifts V[x] right by one; for x = F the result is 0 always
(decision D1); V[y] is neither read nor written. -/
def Obligations.ShrShiftsRightByOne : Prop :=
  ∀ (x y : RegIdx) (s : State),
    ∃ t, exec (.shr x y) s = .next t ∧
      (x ≠ VF → (t.reg VF).toNat = (s.reg x).toNat % 2 ∧ (t.reg x).toNat = (s.reg x).toNat / 2) ∧
      (x = VF → t.reg VF = 0) ∧
      t.pc = s.pc + 2 ∧ ChangesOnly s t [.reg x, .reg VF]

/-- 41_alu.md section 3 (SHL): 8xyE puts bit 7 of V[x] in VF as 0 or 1 (decision D2) and shifts V[x] left by one modulo 256;
for x = F the result is 2 when bit 7 was set and 0 otherwise (decision D1); V[y] is neither read nor written. -/
def Obligations.ShlShiftsLeftByOne : Prop :=
  ∀ (x y : RegIdx) (s : State),
    ∃ t, exec (.shl x y) s = .next t ∧
      (x ≠ VF → (t.reg VF).toNat = (s.reg x).toNat / 128 ∧ (t.reg x).toNat = 2 * (s.reg x).toNat % 256) ∧
      (x = VF → t.reg VF = if (s.reg VF).toNat ≥ 128 then 2 else 0) ∧
      t.pc = s.pc + 2 ∧ ChangesOnly s t [.reg x, .reg VF]

/-- 41_alu.md section 4 (RND): Cxnn writes the step's random byte under the mask nn, whatever that byte is (RND as a step
input is decision D17). -/
def Obligations.RndMasksRandomByte : Prop :=
  ∀ (x : RegIdx) (nn : Byte) (s : State),
    ∃ t, exec (.rnd x nn) s = .next t ∧ t.reg x = s.host.rnd &&& nn ∧ t.pc = s.pc + 2 ∧ ChangesOnly s t [.reg x]

/-! ### Index register and memory (42_index_memory.md) -/

/-- R86, R87: Annn sets I to nnn, and Fx1E adds V[x] to I modulo 65536 with no flag and no range check. -/
def Obligations.IndexLoadsAndAdds : Prop :=
  ∀ (nnn : Addr) (x : RegIdx) (s : State),
    (∃ t, exec (.ldI nnn) s = .next t ∧ t.i.toNat = nnn.toNat ∧ t.pc = s.pc + 2 ∧ ChangesOnly s t [.index]) ∧
    (∃ t, exec (.addI x) s = .next t ∧ t.i.toNat = (s.i.toNat + (s.reg x).toNat) % 65536 ∧ t.pc = s.pc + 2 ∧
      ChangesOnly s t [.index])

/-- 42_index_memory.md section 2 (LD F): Fx29 points I at glyph V[x], and for V[x] above 0xF it raises InvalidFontIndex and
changes nothing else (record: decision D7). -/
def Obligations.FontPointerOrInvalidIndex : Prop :=
  ∀ (x : RegIdx) (s : State),
    ((s.reg x).toNat ≤ 0xF →
      ∃ t, exec (.ldF x) s = .next t ∧ t.i.toNat = 5 * (s.reg x).toNat ∧ t.pc = s.pc + 2 ∧
        ChangesOnly s t [.index]) ∧
    (0xF < (s.reg x).toNat →
      ∃ t, exec (.ldF x) s = .next t ∧ EntersError s t 4 (encode (.ldF x)) 0)

/-- 42_index_memory.md section 2 (LD B): Fx33 stores the decimal digits of V[x], hundreds at I, tens at I + 1 and ones at
I + 2, when the three bytes are in MEM; I is unchanged. Otherwise it raises MemoryOutOfBounds and writes no byte
(decisions D6, D7). -/
def Obligations.BcdStoresDigitsOrRaises : Prop :=
  ∀ (x : RegIdx) (s : State),
    (s.i.toNat + 2 < 4096 →
      ∃ t, exec (.ldB x) s = .next t ∧
        (t.readByte s.i.toNat).toNat = (s.reg x).toNat / 100 ∧
        (t.readByte (s.i.toNat + 1)).toNat = (s.reg x).toNat / 10 % 10 ∧
        (t.readByte (s.i.toNat + 2)).toNat = (s.reg x).toNat % 10 ∧
        t.pc = s.pc + 2 ∧ ChangesOnly s t [.bytes s.i.toNat 3]) ∧
    (4096 ≤ s.i.toNat + 2 →
      ∃ t, exec (.ldB x) s = .next t ∧
        EntersError s t 5 (encode (.ldB x)) (BitVec.ofNat 16 (max s.i.toNat 0x1000)))

/-- 42_index_memory.md section 2 (LD [I], Vx): Fx55 stores V[0] to V[x] from I upward when all x + 1 bytes are in MEM; I
is unchanged. Otherwise it raises MemoryOutOfBounds and writes no byte (decisions D6, D7). -/
def Obligations.StoreWritesRegistersOrRaises : Prop :=
  ∀ (x : RegIdx) (s : State),
    (s.i.toNat + x.val < 4096 →
      ∃ t, exec (.ldStore x) s = .next t ∧ (∀ k : RegIdx, k ≤ x → t.readByte (s.i.toNat + k.val) = s.reg k) ∧
        t.pc = s.pc + 2 ∧ ChangesOnly s t [.bytes s.i.toNat (x.val + 1)]) ∧
    (4096 ≤ s.i.toNat + x.val →
      ∃ t, exec (.ldStore x) s = .next t ∧
        EntersError s t 5 (encode (.ldStore x)) (BitVec.ofNat 16 (max s.i.toNat 0x1000)))

/-- 42_index_memory.md section 2 (LD Vx, [I]): Fx65 loads V[0] to V[x] from I upward when all x + 1 bytes are in MEM; I
is unchanged, and with x = F, VF is loaded like any other register. Otherwise it raises MemoryOutOfBounds and writes no
register (decisions D6, D7). -/
def Obligations.LoadReadsRegistersOrRaises : Prop :=
  ∀ (x : RegIdx) (s : State),
    (s.i.toNat + x.val < 4096 →
      ∃ t, exec (.ldLoad x) s = .next t ∧ (∀ k : RegIdx, k ≤ x → t.reg k = s.readByte (s.i.toNat + k.val)) ∧
        t.pc = s.pc + 2 ∧ ChangesOnly s t [.regsTo x]) ∧
    (4096 ≤ s.i.toNat + x.val →
      ∃ t, exec (.ldLoad x) s = .next t ∧
        EntersError s t 5 (encode (.ldLoad x)) (BitVec.ofNat 16 (max s.i.toNat 0x1000)))

/-- 42_index_memory.md sections 1 and 2: since neither changes I, Fx55 and then Fx65 of the same x, wherever PC stands
between them, leaves the registers as they were. -/
def Obligations.StoreThenLoadRestoresRegisters : Prop :=
  ∀ (x : RegIdx) (s t u : State), s.i.toNat + x.val < 4096 → exec (.ldStore x) s = .next t →
    exec (.ldLoad x) t = .next u → ∀ r, u.reg r = s.reg r

/-- 20_memory.md section 5, which the spec derives in R52 (self-modifying code): after a STEP of Fx55 or Fx33 the word of
the next instruction is fetched with the bytes just stored, with nothing in between: both of its bytes, the first alone,
the second alone, or neither, as the stored range falls. -/
def Obligations.StoreOverNextInstructionIsFetched : Prop :=
  ∀ (x : RegIdx) (s : State), s.status = .ready → s.pendingLoad = none → 1 ≤ s.div → s.pc.toNat + 3 < 4096 →
    let word := wordOfBytes (s.readByte s.pc.toNat) (s.readByte (s.pc.toNat + 1))
    (decode word = .instr (.ldStore x) → s.i.toNat + x.val < 4096 →
      let after := overlaid s (x.val + 1) (fun k => (s.v[k]?).getD 0)
      ∃ t, step s = .next t ∧ t.fetch = some (wordOfBytes (after (s.pc.toNat + 2)) (after (s.pc.toNat + 3)))) ∧
    (decode word = .instr (.ldB x) → s.i.toNat + 2 < 4096 →
      let after := overlaid s 3 (fun k => BitVec.ofNat 8 ((s.reg x).toNat / 10 ^ (2 - k) % 10))
      ∃ t, step s = .next t ∧ t.fetch = some (wordOfBytes (after (s.pc.toNat + 2)) (after (s.pc.toNat + 3))))

/-! ### Display (43_display.md) -/

/-- R93: 00E0 turns every pixel off and changes nothing else. -/
def Obligations.ClsClearsEveryPixel : Prop :=
  ∀ s : State, ∃ t, exec .cls s = .next t ∧ (∀ c r, t.pixel c r = false) ∧ t.pc = s.pc + 2 ∧
    ChangesOnly s t [.display]

/-- 43_display.md section 2 (DRW), R95, R96: Dxyn, when its bytes are in MEM or n = 0, inverts exactly the pixels of the
64 x 32 grid that a sprite bit of 1 falls on, with no pixel wrapped, and VF is 1 exactly when some such pixel was lit
before and 0 otherwise; the coordinates are those before the draw (decision D11). When its bytes leave MEM it raises
MemoryOutOfBounds and draws nothing (decisions D6, D7). -/
def Obligations.DrwXorsSpriteAndFlagsCollision : Prop :=
  ∀ (x y : RegIdx) (n : Nibble) (s : State),
    (n = 0 ∨ s.i.toNat + n.toNat - 1 < 4096 →
      ∃ t, exec (.drw x y n) s = .next t ∧
        (∀ c r, c < 64 → r < 32 →
          t.pixel c r = (s.pixel c r ^^ spriteBit s (s.reg x).toNat (s.reg y).toNat n.toNat c r)) ∧
        (t.reg VF = 0 ∨ t.reg VF = 1) ∧
        (t.reg VF = 1 ↔ ∃ c r, c < 64 ∧ r < 32 ∧
          spriteBit s (s.reg x).toNat (s.reg y).toNat n.toNat c r = true ∧ s.pixel c r = true) ∧
        t.pc = s.pc + 2 ∧ ChangesOnly s t [.display, .reg VF]) ∧
    (n ≠ 0 → 4096 ≤ s.i.toNat + n.toNat - 1 →
      ∃ t, exec (.drw x y n) s = .next t ∧
        EntersError s t 5 (encode (.drw x y n)) (BitVec.ofNat 16 (max s.i.toNat 0x1000)))

/-- 43_display.md section 2 (DRW), as 90_conflicts.md C13 reads it: a second identical draw at the same place puts every
pixel back as it was before the first. -/
def Obligations.DrwTwiceRestoresFramebuffer : Prop :=
  ∀ (x y : RegIdx) (n : Nibble) (s t u : State), x ≠ VF → y ≠ VF → s.status = .ready →
    exec (.drw x y n) s = .next t → t.status = .ready → exec (.drw x y n) t = .next u → u.fb = s.fb

/-! ### Keypad and timers (44_keypad_timers.md) -/

/-- 44_keypad_timers.md section 2 (SKP, SKNP): for V[x] at most 0xF, Ex9E skips when the key V[x] of the step's snapshot is
pressed and ExA1 when it is not, and nothing else changes. For V[x] above 0xF both raise InvalidKeyIndex and change
nothing else (decision D5). -/
def Obligations.KeySkipsTestSnapshotOrRaise : Prop :=
  ∀ (x : RegIdx) (s : State),
    ((s.reg x).toNat ≤ 0xF →
      (∃ t, exec (.skp x) s = .next t ∧
        t.pc = s.pc + (if s.host.key.getLsbD (s.reg x).toNat = true then 4 else 2) ∧ ChangesOnly s t []) ∧
      (∃ t, exec (.sknp x) s = .next t ∧
        t.pc = s.pc + (if s.host.key.getLsbD (s.reg x).toNat = true then 2 else 4) ∧ ChangesOnly s t [])) ∧
    (0xF < (s.reg x).toNat →
      (∃ t, exec (.skp x) s = .next t ∧ EntersError s t 6 (encode (.skp x)) 0) ∧
      (∃ t, exec (.sknp x) s = .next t ∧ EntersError s t 6 (encode (.sknp x)) 0))

/-- R100, R102, R103: Fx07 reads DT into V[x], Fx15 writes V[x] into DT, and Fx18 writes it into ST. -/
def Obligations.TimerMovesCopy : Prop :=
  ∀ (x : RegIdx) (s : State),
    (∃ t, exec (.ldVxDt x) s = .next t ∧ t.reg x = s.dt ∧ t.pc = s.pc + 2 ∧ ChangesOnly s t [.reg x]) ∧
    (∃ t, exec (.ldDtVx x) s = .next t ∧ t.dt = s.reg x ∧ t.pc = s.pc + 2 ∧ ChangesOnly s t [.delay]) ∧
    (∃ t, exec (.ldStVx x) s = .next t ∧ t.st = s.reg x ∧ t.pc = s.pc + 2 ∧ ChangesOnly s t [.sound])

/-- 44_keypad_timers.md section 2 (LD Vx, K): Fx0A puts the lowest pressed key of the step's snapshot in V[x] when some key
is pressed. That it is the lowest of several is decision D3. -/
def Obligations.KeyWaitTakesLowestKey : Prop :=
  ∀ (x : RegIdx) (s : State) (k : Nat), k < 16 → s.host.key.getLsbD k = true →
    (∀ j < k, s.host.key.getLsbD j = false) →
    ∃ t, exec (.ldVxK x) s = .next t ∧ (t.reg x).toNat = k ∧ t.pc = s.pc + 2 ∧ ChangesOnly s t [.reg x]

/-- 44_keypad_timers.md section 2 (LD Vx, K): with no key pressed Fx0A writes nothing, and PC stays at it (the divider still
advances at the end of the step, decision D4, `RetireAdvancesDivider`). -/
def Obligations.KeyWaitHoldsPcWithoutKey : Prop :=
  ∀ (x : RegIdx) (s : State), (∀ k < 16, s.host.key.getLsbD k = false) → exec (.ldVxK x) s = .next s
end

