-- ==== Sys2Proof/Laws/State.lean ====
section
/-! SUPPORT. What each update of the state does to each field: one lemma per field and update, true by rfl. -/

namespace Sys2Proof.Machine

variable (s : State)

/-! ### `State.setReg` -/

@[simp] theorem State.setReg_v (x : RegIdx) (b : Byte) : (s.setReg x b).v = s.v.set x b := rfl
@[simp] theorem State.setReg_i (x : RegIdx) (b : Byte) : (s.setReg x b).i = s.i := rfl
@[simp] theorem State.setReg_pc (x : RegIdx) (b : Byte) : (s.setReg x b).pc = s.pc := rfl
@[simp] theorem State.setReg_stack (x : RegIdx) (b : Byte) : (s.setReg x b).stack = s.stack := rfl
@[simp] theorem State.setReg_sp (x : RegIdx) (b : Byte) : (s.setReg x b).sp = s.sp := rfl
@[simp] theorem State.setReg_dt (x : RegIdx) (b : Byte) : (s.setReg x b).dt = s.dt := rfl
@[simp] theorem State.setReg_st (x : RegIdx) (b : Byte) : (s.setReg x b).st = s.st := rfl
@[simp] theorem State.setReg_div (x : RegIdx) (b : Byte) : (s.setReg x b).div = s.div := rfl
@[simp] theorem State.setReg_fb (x : RegIdx) (b : Byte) : (s.setReg x b).fb = s.fb := rfl
@[simp] theorem State.setReg_status (x : RegIdx) (b : Byte) : (s.setReg x b).status = s.status := rfl
@[simp] theorem State.setReg_errCode (x : RegIdx) (b : Byte) : (s.setReg x b).errCode = s.errCode := rfl
@[simp] theorem State.setReg_errPc (x : RegIdx) (b : Byte) : (s.setReg x b).errPc = s.errPc := rfl
@[simp] theorem State.setReg_errOp (x : RegIdx) (b : Byte) : (s.setReg x b).errOp = s.errOp := rfl
@[simp] theorem State.setReg_errAddr (x : RegIdx) (b : Byte) : (s.setReg x b).errAddr = s.errAddr := rfl
@[simp] theorem State.setReg_mem (x : RegIdx) (b : Byte) : (s.setReg x b).mem = s.mem := rfl
@[simp] theorem State.setReg_config (x : RegIdx) (b : Byte) : (s.setReg x b).config = s.config := rfl
@[simp] theorem State.setReg_host (x : RegIdx) (b : Byte) : (s.setReg x b).host = s.host := rfl

/-! ### `State.setFlag` -/

@[simp] theorem State.setFlag_v (b : Byte) : (s.setFlag b).v = s.v.set (15 : Nat) b := rfl
@[simp] theorem State.setFlag_i (b : Byte) : (s.setFlag b).i = s.i := rfl
@[simp] theorem State.setFlag_pc (b : Byte) : (s.setFlag b).pc = s.pc := rfl
@[simp] theorem State.setFlag_stack (b : Byte) : (s.setFlag b).stack = s.stack := rfl
@[simp] theorem State.setFlag_sp (b : Byte) : (s.setFlag b).sp = s.sp := rfl
@[simp] theorem State.setFlag_dt (b : Byte) : (s.setFlag b).dt = s.dt := rfl
@[simp] theorem State.setFlag_st (b : Byte) : (s.setFlag b).st = s.st := rfl
@[simp] theorem State.setFlag_div (b : Byte) : (s.setFlag b).div = s.div := rfl
@[simp] theorem State.setFlag_fb (b : Byte) : (s.setFlag b).fb = s.fb := rfl
@[simp] theorem State.setFlag_status (b : Byte) : (s.setFlag b).status = s.status := rfl
@[simp] theorem State.setFlag_errCode (b : Byte) : (s.setFlag b).errCode = s.errCode := rfl
@[simp] theorem State.setFlag_errPc (b : Byte) : (s.setFlag b).errPc = s.errPc := rfl
@[simp] theorem State.setFlag_errOp (b : Byte) : (s.setFlag b).errOp = s.errOp := rfl
@[simp] theorem State.setFlag_errAddr (b : Byte) : (s.setFlag b).errAddr = s.errAddr := rfl
@[simp] theorem State.setFlag_mem (b : Byte) : (s.setFlag b).mem = s.mem := rfl
@[simp] theorem State.setFlag_config (b : Byte) : (s.setFlag b).config = s.config := rfl
@[simp] theorem State.setFlag_host (b : Byte) : (s.setFlag b).host = s.host := rfl

/-! ### `State.advance` -/

@[simp] theorem State.advance_v : (s.advance).v = s.v := rfl
@[simp] theorem State.advance_i : (s.advance).i = s.i := rfl
@[simp] theorem State.advance_pc : (s.advance).pc = s.pc + 2 := rfl
@[simp] theorem State.advance_stack : (s.advance).stack = s.stack := rfl
@[simp] theorem State.advance_sp : (s.advance).sp = s.sp := rfl
@[simp] theorem State.advance_dt : (s.advance).dt = s.dt := rfl
@[simp] theorem State.advance_st : (s.advance).st = s.st := rfl
@[simp] theorem State.advance_div : (s.advance).div = s.div := rfl
@[simp] theorem State.advance_fb : (s.advance).fb = s.fb := rfl
@[simp] theorem State.advance_status : (s.advance).status = s.status := rfl
@[simp] theorem State.advance_errCode : (s.advance).errCode = s.errCode := rfl
@[simp] theorem State.advance_errPc : (s.advance).errPc = s.errPc := rfl
@[simp] theorem State.advance_errOp : (s.advance).errOp = s.errOp := rfl
@[simp] theorem State.advance_errAddr : (s.advance).errAddr = s.errAddr := rfl
@[simp] theorem State.advance_mem : (s.advance).mem = s.mem := rfl
@[simp] theorem State.advance_config : (s.advance).config = s.config := rfl
@[simp] theorem State.advance_host : (s.advance).host = s.host := rfl

/-! ### `State.skipIf` -/

@[simp] theorem State.skipIf_v (c : Bool) : (s.skipIf c).v = s.v := rfl
@[simp] theorem State.skipIf_i (c : Bool) : (s.skipIf c).i = s.i := rfl
@[simp] theorem State.skipIf_pc (c : Bool) : (s.skipIf c).pc = if c then s.pc + 2 + 2 else s.pc + 2 := rfl
@[simp] theorem State.skipIf_stack (c : Bool) : (s.skipIf c).stack = s.stack := rfl
@[simp] theorem State.skipIf_sp (c : Bool) : (s.skipIf c).sp = s.sp := rfl
@[simp] theorem State.skipIf_dt (c : Bool) : (s.skipIf c).dt = s.dt := rfl
@[simp] theorem State.skipIf_st (c : Bool) : (s.skipIf c).st = s.st := rfl
@[simp] theorem State.skipIf_div (c : Bool) : (s.skipIf c).div = s.div := rfl
@[simp] theorem State.skipIf_fb (c : Bool) : (s.skipIf c).fb = s.fb := rfl
@[simp] theorem State.skipIf_status (c : Bool) : (s.skipIf c).status = s.status := rfl
@[simp] theorem State.skipIf_errCode (c : Bool) : (s.skipIf c).errCode = s.errCode := rfl
@[simp] theorem State.skipIf_errPc (c : Bool) : (s.skipIf c).errPc = s.errPc := rfl
@[simp] theorem State.skipIf_errOp (c : Bool) : (s.skipIf c).errOp = s.errOp := rfl
@[simp] theorem State.skipIf_errAddr (c : Bool) : (s.skipIf c).errAddr = s.errAddr := rfl
@[simp] theorem State.skipIf_mem (c : Bool) : (s.skipIf c).mem = s.mem := rfl
@[simp] theorem State.skipIf_config (c : Bool) : (s.skipIf c).config = s.config := rfl
@[simp] theorem State.skipIf_host (c : Bool) : (s.skipIf c).host = s.host := rfl

/-! ### `State.jump` -/

@[simp] theorem State.jump_v (w : Word) : (s.jump w).v = s.v := rfl
@[simp] theorem State.jump_i (w : Word) : (s.jump w).i = s.i := rfl
@[simp] theorem State.jump_pc (w : Word) : (s.jump w).pc = w := rfl
@[simp] theorem State.jump_stack (w : Word) : (s.jump w).stack = s.stack := rfl
@[simp] theorem State.jump_sp (w : Word) : (s.jump w).sp = s.sp := rfl
@[simp] theorem State.jump_dt (w : Word) : (s.jump w).dt = s.dt := rfl
@[simp] theorem State.jump_st (w : Word) : (s.jump w).st = s.st := rfl
@[simp] theorem State.jump_div (w : Word) : (s.jump w).div = s.div := rfl
@[simp] theorem State.jump_fb (w : Word) : (s.jump w).fb = s.fb := rfl
@[simp] theorem State.jump_status (w : Word) : (s.jump w).status = s.status := rfl
@[simp] theorem State.jump_errCode (w : Word) : (s.jump w).errCode = s.errCode := rfl
@[simp] theorem State.jump_errPc (w : Word) : (s.jump w).errPc = s.errPc := rfl
@[simp] theorem State.jump_errOp (w : Word) : (s.jump w).errOp = s.errOp := rfl
@[simp] theorem State.jump_errAddr (w : Word) : (s.jump w).errAddr = s.errAddr := rfl
@[simp] theorem State.jump_mem (w : Word) : (s.jump w).mem = s.mem := rfl
@[simp] theorem State.jump_config (w : Word) : (s.jump w).config = s.config := rfl
@[simp] theorem State.jump_host (w : Word) : (s.jump w).host = s.host := rfl

/-! ### `State.writeByte` -/

@[simp] theorem State.writeByte_v (a : Nat) (b : Byte) : (s.writeByte a b).v = s.v := rfl
@[simp] theorem State.writeByte_i (a : Nat) (b : Byte) : (s.writeByte a b).i = s.i := rfl
@[simp] theorem State.writeByte_pc (a : Nat) (b : Byte) : (s.writeByte a b).pc = s.pc := rfl
@[simp] theorem State.writeByte_stack (a : Nat) (b : Byte) : (s.writeByte a b).stack = s.stack := rfl
@[simp] theorem State.writeByte_sp (a : Nat) (b : Byte) : (s.writeByte a b).sp = s.sp := rfl
@[simp] theorem State.writeByte_dt (a : Nat) (b : Byte) : (s.writeByte a b).dt = s.dt := rfl
@[simp] theorem State.writeByte_st (a : Nat) (b : Byte) : (s.writeByte a b).st = s.st := rfl
@[simp] theorem State.writeByte_div (a : Nat) (b : Byte) : (s.writeByte a b).div = s.div := rfl
@[simp] theorem State.writeByte_fb (a : Nat) (b : Byte) : (s.writeByte a b).fb = s.fb := rfl
@[simp] theorem State.writeByte_status (a : Nat) (b : Byte) : (s.writeByte a b).status = s.status := rfl
@[simp] theorem State.writeByte_errCode (a : Nat) (b : Byte) : (s.writeByte a b).errCode = s.errCode := rfl
@[simp] theorem State.writeByte_errPc (a : Nat) (b : Byte) : (s.writeByte a b).errPc = s.errPc := rfl
@[simp] theorem State.writeByte_errOp (a : Nat) (b : Byte) : (s.writeByte a b).errOp = s.errOp := rfl
@[simp] theorem State.writeByte_errAddr (a : Nat) (b : Byte) : (s.writeByte a b).errAddr = s.errAddr := rfl
@[simp] theorem State.writeByte_mem (a : Nat) (b : Byte) : (s.writeByte a b).mem = Memory.write s.config s.mem a b := rfl
@[simp] theorem State.writeByte_config (a : Nat) (b : Byte) : (s.writeByte a b).config = s.config := rfl
@[simp] theorem State.writeByte_host (a : Nat) (b : Byte) : (s.writeByte a b).host = s.host := rfl

/-! ### `State.withResult` -/

@[simp] theorem State.withResult_v (r : OpResult) : (s.withResult r).v = s.v := rfl
@[simp] theorem State.withResult_i (r : OpResult) : (s.withResult r).i = s.i := rfl
@[simp] theorem State.withResult_pc (r : OpResult) : (s.withResult r).pc = s.pc := rfl
@[simp] theorem State.withResult_stack (r : OpResult) : (s.withResult r).stack = s.stack := rfl
@[simp] theorem State.withResult_sp (r : OpResult) : (s.withResult r).sp = s.sp := rfl
@[simp] theorem State.withResult_dt (r : OpResult) : (s.withResult r).dt = s.dt := rfl
@[simp] theorem State.withResult_st (r : OpResult) : (s.withResult r).st = s.st := rfl
@[simp] theorem State.withResult_div (r : OpResult) : (s.withResult r).div = s.div := rfl
@[simp] theorem State.withResult_fb (r : OpResult) : (s.withResult r).fb = s.fb := rfl
@[simp] theorem State.withResult_status (r : OpResult) : (s.withResult r).status = s.status := rfl
@[simp] theorem State.withResult_errCode (r : OpResult) : (s.withResult r).errCode = s.errCode := rfl
@[simp] theorem State.withResult_errPc (r : OpResult) : (s.withResult r).errPc = s.errPc := rfl
@[simp] theorem State.withResult_errOp (r : OpResult) : (s.withResult r).errOp = s.errOp := rfl
@[simp] theorem State.withResult_errAddr (r : OpResult) : (s.withResult r).errAddr = s.errAddr := rfl
@[simp] theorem State.withResult_mem (r : OpResult) : (s.withResult r).mem = s.mem := rfl
@[simp] theorem State.withResult_config (r : OpResult) : (s.withResult r).config = s.config := rfl
@[simp] theorem State.withResult_host (r : OpResult) : (s.withResult r).host = { s.host with result := r } := rfl

/-! ### `State.raise` -/

@[simp] theorem State.raise_v (e : ExecError) (op addr : Word) : (s.raise e op addr).v = s.v := rfl
@[simp] theorem State.raise_i (e : ExecError) (op addr : Word) : (s.raise e op addr).i = s.i := rfl
@[simp] theorem State.raise_pc (e : ExecError) (op addr : Word) : (s.raise e op addr).pc = s.pc := rfl
@[simp] theorem State.raise_stack (e : ExecError) (op addr : Word) : (s.raise e op addr).stack = s.stack := rfl
@[simp] theorem State.raise_sp (e : ExecError) (op addr : Word) : (s.raise e op addr).sp = s.sp := rfl
@[simp] theorem State.raise_dt (e : ExecError) (op addr : Word) : (s.raise e op addr).dt = s.dt := rfl
@[simp] theorem State.raise_st (e : ExecError) (op addr : Word) : (s.raise e op addr).st = s.st := rfl
@[simp] theorem State.raise_div (e : ExecError) (op addr : Word) : (s.raise e op addr).div = s.div := rfl
@[simp] theorem State.raise_fb (e : ExecError) (op addr : Word) : (s.raise e op addr).fb = s.fb := rfl
@[simp] theorem State.raise_status (e : ExecError) (op addr : Word) : (s.raise e op addr).status = .halted := rfl
@[simp] theorem State.raise_errCode (e : ExecError) (op addr : Word) : (s.raise e op addr).errCode = e.code := rfl
@[simp] theorem State.raise_errPc (e : ExecError) (op addr : Word) : (s.raise e op addr).errPc = s.pc := rfl
@[simp] theorem State.raise_errOp (e : ExecError) (op addr : Word) : (s.raise e op addr).errOp = op := rfl
@[simp] theorem State.raise_errAddr (e : ExecError) (op addr : Word) : (s.raise e op addr).errAddr = addr := rfl
@[simp] theorem State.raise_mem (e : ExecError) (op addr : Word) : (s.raise e op addr).mem = s.mem := rfl
@[simp] theorem State.raise_config (e : ExecError) (op addr : Word) : (s.raise e op addr).config = s.config := rfl
@[simp] theorem State.raise_host (e : ExecError) (op addr : Word) : (s.raise e op addr).host = { s.host with result := .error e.code } := rfl

/-! ### `State.divAdvance` -/

@[simp] theorem State.divAdvance_v : (s.divAdvance).v = s.v := rfl
@[simp] theorem State.divAdvance_i : (s.divAdvance).i = s.i := rfl
@[simp] theorem State.divAdvance_pc : (s.divAdvance).pc = s.pc := rfl
@[simp] theorem State.divAdvance_stack : (s.divAdvance).stack = s.stack := rfl
@[simp] theorem State.divAdvance_sp : (s.divAdvance).sp = s.sp := rfl
@[simp] theorem State.divAdvance_dt : (s.divAdvance).dt = if s.ticks then tickDown s.dt else s.dt := rfl
@[simp] theorem State.divAdvance_st : (s.divAdvance).st = if s.ticks then tickDown s.st else s.st := rfl
@[simp] theorem State.divAdvance_div : (s.divAdvance).div = if s.ticks then s.config.cyclesPerTick else s.div - 1 := rfl
@[simp] theorem State.divAdvance_fb : (s.divAdvance).fb = s.fb := rfl
@[simp] theorem State.divAdvance_status : (s.divAdvance).status = s.status := rfl
@[simp] theorem State.divAdvance_errCode : (s.divAdvance).errCode = s.errCode := rfl
@[simp] theorem State.divAdvance_errPc : (s.divAdvance).errPc = s.errPc := rfl
@[simp] theorem State.divAdvance_errOp : (s.divAdvance).errOp = s.errOp := rfl
@[simp] theorem State.divAdvance_errAddr : (s.divAdvance).errAddr = s.errAddr := rfl
@[simp] theorem State.divAdvance_mem : (s.divAdvance).mem = s.mem := rfl
@[simp] theorem State.divAdvance_config : (s.divAdvance).config = s.config := rfl
@[simp] theorem State.divAdvance_host : (s.divAdvance).host = s.host := rfl

/-! ### `State.takeInputs` -/

@[simp] theorem State.takeInputs_v : (s.takeInputs).v = s.v := rfl
@[simp] theorem State.takeInputs_i : (s.takeInputs).i = s.i := rfl
@[simp] theorem State.takeInputs_pc : (s.takeInputs).pc = s.pc := rfl
@[simp] theorem State.takeInputs_stack : (s.takeInputs).stack = s.stack := rfl
@[simp] theorem State.takeInputs_sp : (s.takeInputs).sp = s.sp := rfl
@[simp] theorem State.takeInputs_dt : (s.takeInputs).dt = s.dt := rfl
@[simp] theorem State.takeInputs_st : (s.takeInputs).st = s.st := rfl
@[simp] theorem State.takeInputs_div : (s.takeInputs).div = s.div := rfl
@[simp] theorem State.takeInputs_fb : (s.takeInputs).fb = s.fb := rfl
@[simp] theorem State.takeInputs_status : (s.takeInputs).status = s.status := rfl
@[simp] theorem State.takeInputs_errCode : (s.takeInputs).errCode = s.errCode := rfl
@[simp] theorem State.takeInputs_errPc : (s.takeInputs).errPc = s.errPc := rfl
@[simp] theorem State.takeInputs_errOp : (s.takeInputs).errOp = s.errOp := rfl
@[simp] theorem State.takeInputs_errAddr : (s.takeInputs).errAddr = s.errAddr := rfl
@[simp] theorem State.takeInputs_mem : (s.takeInputs).mem = s.mem := rfl
@[simp] theorem State.takeInputs_config : (s.takeInputs).config = s.config := rfl
@[simp] theorem State.takeInputs_host : (s.takeInputs).host = s.host.takeInputs := rfl

/-! ### `State.popPending` -/

@[simp] theorem State.popPending_v : (s.popPending).v = s.v := rfl
@[simp] theorem State.popPending_i : (s.popPending).i = s.i := rfl
@[simp] theorem State.popPending_pc : (s.popPending).pc = s.pc := rfl
@[simp] theorem State.popPending_stack : (s.popPending).stack = s.stack := rfl
@[simp] theorem State.popPending_sp : (s.popPending).sp = s.sp := rfl
@[simp] theorem State.popPending_dt : (s.popPending).dt = s.dt := rfl
@[simp] theorem State.popPending_st : (s.popPending).st = s.st := rfl
@[simp] theorem State.popPending_div : (s.popPending).div = s.div := rfl
@[simp] theorem State.popPending_fb : (s.popPending).fb = s.fb := rfl
@[simp] theorem State.popPending_status : (s.popPending).status = s.status := rfl
@[simp] theorem State.popPending_errCode : (s.popPending).errCode = s.errCode := rfl
@[simp] theorem State.popPending_errPc : (s.popPending).errPc = s.errPc := rfl
@[simp] theorem State.popPending_errOp : (s.popPending).errOp = s.errOp := rfl
@[simp] theorem State.popPending_errAddr : (s.popPending).errAddr = s.errAddr := rfl
@[simp] theorem State.popPending_mem : (s.popPending).mem = s.mem := rfl
@[simp] theorem State.popPending_config : (s.popPending).config = s.config := rfl
@[simp] theorem State.popPending_host : (s.popPending).host = { s.host with pending := s.host.pending.tail } := rfl

/-! ### `State.loaded`: the fields of R38 -/

variable (image : List Byte)

@[simp] theorem State.loaded_v : (s.loaded image).v = Vector.replicate 16 0 := rfl
@[simp] theorem State.loaded_i : (s.loaded image).i = 0 := rfl
@[simp] theorem State.loaded_pc : (s.loaded image).pc = 0x200 := rfl
@[simp] theorem State.loaded_stack : (s.loaded image).stack = Vector.replicate 16 0 := rfl
@[simp] theorem State.loaded_sp : (s.loaded image).sp = 0 := rfl
@[simp] theorem State.loaded_dt : (s.loaded image).dt = 0 := rfl
@[simp] theorem State.loaded_st : (s.loaded image).st = 0 := rfl
@[simp] theorem State.loaded_div : (s.loaded image).div = s.config.cyclesPerTick := rfl
@[simp] theorem State.loaded_fb : (s.loaded image).fb = Vector.replicate 32 0 := rfl
@[simp] theorem State.loaded_status : (s.loaded image).status = .ready := rfl
@[simp] theorem State.loaded_errCode : (s.loaded image).errCode = 0 := rfl
@[simp] theorem State.loaded_errPc : (s.loaded image).errPc = 0 := rfl
@[simp] theorem State.loaded_errOp : (s.loaded image).errOp = 0 := rfl
@[simp] theorem State.loaded_errAddr : (s.loaded image).errAddr = 0 := rfl
@[simp] theorem State.loaded_mem : (s.loaded image).mem = Memory.image s.config progBase image := rfl
@[simp] theorem State.loaded_config : (s.loaded image).config = s.config := rfl
@[simp] theorem State.loaded_host : (s.loaded image).host = { s.host with result := .ok } := rfl

/-! ### Reads that do not look at the updated part -/

theorem State.reg_of_v {s t : State} (h : t.v = s.v) (r : RegIdx) : t.reg r = s.reg r := by
  simp [State.reg, h]

theorem State.readByte_of_mem {s t : State} (hm : t.mem = s.mem) (hc : t.config = s.config) (a : Nat) :
    t.readByte a = s.readByte a := by
  simp [State.readByte, hm, hc]

theorem State.raiseBounds_eq (op : Word) (a : Nat) :
    s.raiseBounds op a = s.raise .memoryOutOfBounds op (rangeErrAddr a) := rfl

end Sys2Proof.Machine
end

