-- ==== Sys2Proof/Laws/Decode.lean ====
section
/-! SUPPORT. Laws of the encoding: the fields of each form of R55, and each word written from its fields. -/

namespace Sys2Proof

variable (w : Word) (o n : Nibble) (x y : RegIdx) (nn : Byte) (nnn : Addr)

/-! ### The fields of a word written in one of the forms -/

@[simp] theorem fieldO_formNibble : fieldO (formNibble o x y n) = o := by
  unfold fieldO formNibble
  rw [BitVec.extractLsb'_append_eq_of_le (by omega), BitVec.extractLsb'_append_eq_of_le (by omega)]
  exact BitVec.extractLsb'_append_eq_left

@[simp] theorem fieldX_formNibble : fieldX (formNibble o x y n) = x := by
  unfold fieldX formNibble
  rw [BitVec.extractLsb'_append_eq_of_le (by omega), BitVec.extractLsb'_append_eq_of_le (by omega),
    BitVec.extractLsb'_append_eq_right]

@[simp] theorem fieldY_formNibble : fieldY (formNibble o x y n) = y := by
  unfold fieldY formNibble
  rw [BitVec.extractLsb'_append_eq_of_le (by omega), BitVec.extractLsb'_append_eq_right]

@[simp] theorem fieldN_formNibble : fieldN (formNibble o x y n) = n :=
  BitVec.extractLsb'_append_eq_right

@[simp] theorem fieldO_formByte : fieldO (formByte o x nn) = o := by
  unfold fieldO formByte
  rw [BitVec.extractLsb'_append_eq_of_le (by omega)]
  exact BitVec.extractLsb'_append_eq_left

@[simp] theorem fieldX_formByte : fieldX (formByte o x nn) = x := by
  unfold fieldX formByte
  rw [BitVec.extractLsb'_append_eq_of_le (by omega), BitVec.extractLsb'_append_eq_right]

@[simp] theorem fieldNn_formByte : fieldNn (formByte o x nn) = nn :=
  BitVec.extractLsb'_append_eq_right

@[simp] theorem fieldO_formAddr : fieldO (formAddr o nnn) = o :=
  BitVec.extractLsb'_append_eq_left

@[simp] theorem fieldNnn_formAddr : fieldNnn (formAddr o nnn) = nnn :=
  BitVec.extractLsb'_append_eq_right

/-! ### A word written from its own fields -/

theorem formAddr_fields : formAddr (fieldO w) (fieldNnn w) = w := by
  unfold formAddr fieldO fieldNnn
  apply BitVec.eq_of_getLsbD_eq
  intro k hk
  rw [BitVec.getLsbD_append]
  split
  · next h => simp [h]
  · next h =>
    have : k - 12 < 4 := by omega
    simp [this, show 12 + (k - 12) = k by omega]

theorem formByte_fields : formByte (fieldO w) (fieldX w) (fieldNn w) = w := by
  unfold formByte fieldO fieldX fieldNn
  apply BitVec.eq_of_getLsbD_eq
  intro k hk
  rw [BitVec.getLsbD_append, BitVec.getLsbD_append]
  split
  · next h => simp [h]
  · split
    · next h =>
      change (BitVec.extractLsb' 8 4 w).getLsbD (k - 8) = _
      simp [h, show 8 + (k - 8) = k by omega]
    · have : k - 8 - 4 < 4 := by omega
      simp [this, show 12 + (k - 8 - 4) = k by omega]

theorem formNibble_fields : formNibble (fieldO w) (fieldX w) (fieldY w) (fieldN w) = w := by
  unfold formNibble fieldO fieldX fieldY fieldN
  apply BitVec.eq_of_getLsbD_eq
  intro k hk
  rw [BitVec.getLsbD_append, BitVec.getLsbD_append, BitVec.getLsbD_append]
  split
  · next h => simp [h]
  · split
    · next h =>
      change (BitVec.extractLsb' 4 4 w).getLsbD (k - 4) = _
      simp [h, show 4 + (k - 4) = k by omega]
    · split
      · next h =>
        change (BitVec.extractLsb' 8 4 w).getLsbD (k - 4 - 4) = _
        simp [h, show 8 + (k - 4 - 4) = k by omega]
      · have : k - 4 - 4 - 4 < 4 := by omega
        simp [this, show 12 + (k - 4 - 4 - 4) = k by omega]

/-- The two bytes of a word, as memory holds them, make the word again (R45). -/
@[simp] theorem wordOfBytes_bytes : wordOfBytes (firstByte w) (secondByte w) = w := by
  unfold wordOfBytes firstByte secondByte
  apply BitVec.eq_of_getLsbD_eq
  intro k hk
  rw [BitVec.getLsbD_append]
  split
  · next h => simp [h]
  · have : k - 8 < 8 := by omega
    simp [this, show 8 + (k - 8) = k by omega]

/-! ### A form under the masks of R58 -/

theorem OpcodeRow.selects_of_and {r : OpcodeRow} {w : Word} (h : w &&& r.mask = r.pattern) :
    r.selects w = true := beq_iff_eq.2 h

theorem nibble_and_F (a : Nibble) : a &&& 0xF#4 = a := by
  exact (BitVec.and_allOnes (x := a))

theorem byte_and_FF (a : Byte) : a &&& 0xFF#8 = a := by
  exact (BitVec.and_allOnes (x := a))

@[simp] theorem formAddr_and_F000 : formAddr o nnn &&& 0xF000#16 = formAddr o 0 := by
  change (o ++ nnn) &&& (0xF#4 ++ 0x000#12) = _
  rw [BitVec.and_append]
  simp [formAddr, nibble_and_F]

@[simp] theorem formByte_and_F000 : formByte o x nn &&& 0xF000#16 = formByte o 0 0 := by
  change (o ++ (BitVec.ofFin x : Nibble) ++ nn) &&& (0xF#4 ++ 0x0#4 ++ 0x00#8) = _
  rw [BitVec.and_append, BitVec.and_append]
  simp [formByte, nibble_and_F]

@[simp] theorem formByte_and_F0FF : formByte o x nn &&& 0xF0FF#16 = formByte o 0 nn := by
  change (o ++ (BitVec.ofFin x : Nibble) ++ nn) &&& (0xF#4 ++ 0x0#4 ++ 0xFF#8) = _
  rw [BitVec.and_append, BitVec.and_append]
  simp [formByte, nibble_and_F, byte_and_FF]

@[simp] theorem formNibble_and_F000 : formNibble o x y n &&& 0xF000#16 = formNibble o 0 0 0 := by
  change ((o ++ (BitVec.ofFin x : Nibble) ++ (BitVec.ofFin y : Nibble) ++ n : Word)) &&& (0xF#4 ++ 0x0#4 ++ 0x0#4 ++ 0x0#4) = _
  rw [BitVec.and_append, BitVec.and_append, BitVec.and_append]
  simp [formNibble, nibble_and_F]

@[simp] theorem formNibble_and_F00F : formNibble o x y n &&& 0xF00F#16 = formNibble o 0 0 n := by
  change ((o ++ (BitVec.ofFin x : Nibble) ++ (BitVec.ofFin y : Nibble) ++ n : Word)) &&& (0xF#4 ++ 0x0#4 ++ 0x0#4 ++ 0xF#4) = _
  rw [BitVec.and_append, BitVec.and_append, BitVec.and_append]
  simp [formNibble, nibble_and_F]

end Sys2Proof
end

