-- ==== Sys2Proof/Laws/Memory.lean ====
section
/-! SUPPORT. Laws of MEM: read after write, the canonical form, and ranges of bytes. -/

namespace Sys2Proof.Machine

variable (c : Config)

/-! ### Read after write -/

theorem Memory.read_filter_ne (m : Memory) {a b : Nat} (h : b ≠ a) :
    Memory.read c (m.filter (fun e => e.1 != a)) b = Memory.read c m b := by
  induction m with
  | nil => rfl
  | cons e m ih =>
    obtain ⟨k, w⟩ := e
    by_cases hk : k = a
    · subst hk
      simp [Memory.read, ih, h]
    · simp [Memory.read, ih, hk]

theorem Memory.read_filter_self (m : Memory) (a : Nat) :
    Memory.read c (m.filter (fun e => e.1 != a)) a = Memory.unlisted c a := by
  induction m with
  | nil => rfl
  | cons e m ih =>
    obtain ⟨k, w⟩ := e
    by_cases hk : k = a
    · subst hk; simp [ih]
    · have : a ≠ k := fun e => hk e.symm
      simp [Memory.read, ih, hk, this]

theorem Memory.read_insert_self (m : Memory) (a : Nat) (v : Byte) (h : ∀ e ∈ m, e.1 ≠ a) :
    Memory.read c (Memory.insert a v m) a = v := by
  induction m with
  | nil => simp [Memory.insert, Memory.read]
  | cons e m ih =>
    obtain ⟨k, w⟩ := e
    have hk : a ≠ k := fun e => h (k, w) (by simp) e.symm
    unfold Memory.insert
    split
    · simp [Memory.read]
    · simp [Memory.read, hk, ih (fun e he => h e (by simp [he]))]

theorem Memory.read_insert_ne (m : Memory) {a b : Nat} (v : Byte) (h : b ≠ a) :
    Memory.read c (Memory.insert a v m) b = Memory.read c m b := by
  induction m with
  | nil => simp [Memory.insert, Memory.read, h]
  | cons e m ih =>
    obtain ⟨k, w⟩ := e
    unfold Memory.insert
    split
    · simp [Memory.read, h]
    · simp [Memory.read, ih]

/-- A read after a write of the same address gives the value written, in every memory. -/
@[simp] theorem Memory.read_write_same (m : Memory) (a : Nat) (v : Byte) :
    Memory.read c (Memory.write c m a v) a = v := by
  unfold Memory.write
  split
  · next h => rw [Memory.read_filter_self, h]
  · exact Memory.read_insert_self c _ a v (by simp)

/-- A write leaves every other address alone, in every memory. -/
theorem Memory.read_write_of_ne (m : Memory) {a b : Nat} (v : Byte) (h : b ≠ a) :
    Memory.read c (Memory.write c m a v) b = Memory.read c m b := by
  unfold Memory.write
  split
  · exact Memory.read_filter_ne c m h
  · rw [Memory.read_insert_ne c _ v h, Memory.read_filter_ne c m h]

theorem State.readByte_writeByte (s : State) (a b : Nat) (v : Byte) :
    (s.writeByte a v).readByte b = if b = a then v else s.readByte b := by
  split
  · next h => subst h; simp [State.readByte]
  · next h => simp [State.readByte, Memory.read_write_of_ne _ _ _ h]

/-! ### The canonical form -/

theorem Memory.wfFrom_mono {lo lo' : Nat} (m : Memory) (hl : lo' ≤ lo)
    (h : Memory.wfFrom c lo m = true) : Memory.wfFrom c lo' m = true := by
  cases m with
  | nil => rfl
  | cons e m =>
    obtain ⟨k, w⟩ := e
    simp only [Memory.wfFrom, Bool.and_eq_true, decide_eq_true_eq] at h ⊢
    exact ⟨⟨⟨by omega, h.1.1.2⟩, h.1.2⟩, h.2⟩

theorem Memory.wfFrom_filter {lo a : Nat} (m : Memory) (h : Memory.wfFrom c lo m = true) :
    Memory.wfFrom c lo (m.filter (fun e => e.1 != a)) = true := by
  induction m generalizing lo with
  | nil => rfl
  | cons e m ih =>
    obtain ⟨k, w⟩ := e
    simp only [Memory.wfFrom, Bool.and_eq_true, decide_eq_true_eq] at h
    by_cases hk : k = a
    · subst hk
      simpa using Memory.wfFrom_mono c _ (by omega) (ih h.2)
    · simp [hk, Memory.wfFrom, h.1, ih h.2]

theorem Memory.wfFrom_insert {lo a : Nat} {v : Byte} (m : Memory) (h : Memory.wfFrom c lo m = true)
    (hl : lo ≤ a) (ha : a < memSize) (hv : v ≠ Memory.unlisted c a) (hn : ∀ e ∈ m, e.1 ≠ a) :
    Memory.wfFrom c lo (Memory.insert a v m) = true := by
  induction m generalizing lo with
  | nil => simp [Memory.insert, Memory.wfFrom, hl, ha, hv]
  | cons e m ih =>
    obtain ⟨k, w⟩ := e
    have hk : k ≠ a := hn (k, w) (by simp)
    simp only [Memory.wfFrom, Bool.and_eq_true, decide_eq_true_eq] at h
    unfold Memory.insert
    split
    · next hlt =>
      simp only [Memory.wfFrom, Bool.and_eq_true, decide_eq_true_eq]
      exact ⟨⟨⟨hl, ha⟩, hv⟩, ⟨⟨by omega, h.1.1.2⟩, h.1.2⟩, h.2⟩
    · next hlt =>
      simp only [Memory.wfFrom, Bool.and_eq_true, decide_eq_true_eq]
      exact ⟨h.1, ih h.2 (by omega) (fun e he => hn e (by simp [he]))⟩

/-- A write into MEM keeps the canonical form. -/
theorem Memory.wf_write {m : Memory} {a : Nat} (v : Byte) (h : Memory.wf c m = true) (ha : a < memSize) :
    Memory.wf c (Memory.write c m a v) = true := by
  unfold Memory.write
  split
  · exact Memory.wfFrom_filter c m h
  · next hv => exact Memory.wfFrom_insert c _ (Memory.wfFrom_filter c m h) (Nat.zero_le a) ha hv (by simp)

theorem Memory.wfFrom_image (bs : List Byte) {a : Nat} (h : a + bs.length ≤ memSize) :
    Memory.wfFrom c a (Memory.image c a bs) = true := by
  induction bs generalizing a with
  | nil => rfl
  | cons b bs ih =>
    simp only [List.length_cons] at h
    have ih' := ih (a := a + 1) (by omega)
    unfold Memory.image
    split
    · exact Memory.wfFrom_mono c _ (by omega) ih'
    · next hb => simp [Memory.wfFrom, ih', hb, show a < memSize by omega]

/-- The memory LOAD leaves is in canonical form. -/
theorem Memory.wf_image {bs : List Byte} (h : bs.length ≤ maxProg) :
    Memory.wf c (Memory.image c progBase bs) = true :=
  Memory.wfFrom_mono c _ (Nat.zero_le _)
    (Memory.wfFrom_image c bs (a := progBase) (by change bs.length ≤ 3584 at h; change 512 + _ ≤ 4096; omega))

/-- What the memory of an image reads as: the image's bytes, and the unlisted contents elsewhere (R119). -/
theorem Memory.read_image (bs : List Byte) (a b : Nat) :
    Memory.read c (Memory.image c a bs) b =
      if a ≤ b then (bs[b - a]?).getD (Memory.unlisted c b) else Memory.unlisted c b := by
  induction bs generalizing a with
  | nil => simp [Memory.image, Memory.read]
  | cons v bs ih =>
    unfold Memory.image
    rcases Nat.lt_trichotomy b a with hb | hb | hb
    · have h1 : ¬ a ≤ b := by omega
      have h2 : ¬ a + 1 ≤ b := by omega
      have h3 : b ≠ a := by omega
      split <;> simp only [Memory.read, ih, h2, h3, if_false]
    · subst hb
      split
      · next h => simp [ih, h]
      · simp [Memory.read]
    · have h1 : a ≤ b := by omega
      have h2 : a + 1 ≤ b := by omega
      have h3 : b ≠ a := by omega
      have h4 : b - a = (b - (a + 1)) + 1 := by omega
      split <;> simp only [Memory.read, ih, h2, h3, h4, if_true, if_false, List.getElem?_cons_succ]

/-! ### Ranges of bytes -/

theorem rangeOk_iff (a n : Nat) : rangeOk a n = true ↔ n = 0 ∨ a + n ≤ memSize := by
  simp only [rangeOk, Bool.or_eq_true, beq_iff_eq, decide_eq_true_eq]
  omega

@[simp] theorem State.length_bytesFrom (s : State) (a n : Nat) : (s.bytesFrom a n).length = n := by
  induction n generalizing a with
  | zero => rfl
  | succ n ih => simp [State.bytesFrom, ih]

theorem State.getElem?_bytesFrom (s : State) (a n k : Nat) (h : k < n) :
    (s.bytesFrom a n)[k]? = some (s.readByte (a + k)) := by
  induction n generalizing a k with
  | zero => omega
  | succ n ih =>
    cases k with
    | zero => simp [State.bytesFrom]
    | succ k => simp [State.bytesFrom, ih (a + 1) k (by omega), show a + 1 + k = a + (k + 1) by omega]

/-- What `putBytes` can do: it writes MEM only. -/
theorem State.putBytes_frame (s : State) (bs : List Byte) (a : Nat) :
    s.putBytes a bs = { s with mem := (s.putBytes a bs).mem } := by
  induction bs generalizing s a with
  | nil => rfl
  | cons b bs ih => unfold State.putBytes; rw [ih]; rfl

/-- What a byte reads as after `putBytes`: the byte of its place in the range, or what it read as before. -/
theorem State.readByte_putBytes (s : State) (bs : List Byte) (a b : Nat) :
    (s.putBytes a bs).readByte b =
      if a ≤ b then (bs[b - a]?).getD (s.readByte b) else s.readByte b := by
  induction bs generalizing s a with
  | nil => simp [State.putBytes]
  | cons v bs ih =>
    unfold State.putBytes
    rw [ih, State.readByte_writeByte]
    rcases Nat.lt_trichotomy b a with hb | hb | hb
    · have h1 : ¬ a ≤ b := by omega
      have h2 : ¬ a + 1 ≤ b := by omega
      have h3 : b ≠ a := by omega
      simp [h1, h2, h3]
    · subst hb; simp
    · have h1 : a ≤ b := by omega
      have h2 : a + 1 ≤ b := by omega
      have h3 : b ≠ a := by omega
      have h4 : b - a = (b - (a + 1)) + 1 := by omega
      simp [h1, h2, h3, h4]

theorem State.wf_putBytes (s : State) (bs : List Byte) (a : Nat) (h : Memory.wf s.config s.mem = true)
    (ha : a + bs.length ≤ memSize) : Memory.wf s.config (s.putBytes a bs).mem = true := by
  induction bs generalizing s a with
  | nil => exact h
  | cons b bs ih =>
    simp only [List.length_cons] at ha
    exact ih (s.writeByte a b) (a + 1) (Memory.wf_write s.config b h (by omega)) (by omega)

/-- What a checked store can do: if it answers `some t`, the range is in MEM and `t` is the written state. -/
theorem State.storeBytes_eq_some {s t : State} {a : Nat} {bs : List Byte} :
    s.storeBytes a bs = some t ↔ rangeOk a bs.length = true ∧ t = s.putBytes a bs := by
  unfold State.storeBytes
  split
  · next h => simp [h, eq_comm]
  · next h => simp [h]

theorem State.loadBytes_eq_some {s : State} {a n : Nat} {bs : List Byte} :
    s.loadBytes a n = some bs ↔ rangeOk a n = true ∧ bs = s.bytesFrom a n := by
  unfold State.loadBytes
  split
  · next h => simp [h, eq_comm]
  · next h => simp [h]

/-- Fetch reads the two bytes at PC, the first as the high byte (R44), or fails at the end of MEM. -/
theorem State.fetch_eq_some {s : State} {w : Word} :
    s.fetch = some w ↔
      s.pc.toNat + 1 < memSize ∧ w = wordOfBytes (s.readByte s.pc.toNat) (s.readByte (s.pc.toNat + 1)) := by
  unfold State.fetch
  split
  · next h => simp [h, eq_comm]
  · next h => simp [h]

theorem State.fetch_eq_none {s : State} : s.fetch = none ↔ memSize ≤ s.pc.toNat + 1 := by
  unfold State.fetch
  split
  · next h => simp; omega
  · next h => simp; omega

end Sys2Proof.Machine
end

