-- ==== Sys2Proof/Laws/Display.lean ====
section
/-! SUPPORT. Laws of the framebuffer: what drawing does to each pixel, and when it collides. -/

namespace Sys2Proof.Machine

/-- Toggling a pixel of the grid inverts it and no other. -/
theorem Framebuffer.pixel_toggle (fb : Framebuffer) (c r c' r' : Nat) (hc : c < 64) (hr : r < 32) :
    Framebuffer.pixel (Framebuffer.toggle fb c r) c' r' = (Framebuffer.pixel fb c' r' ^^ decide (c' = c ∧ r' = r)) := by
  unfold Framebuffer.pixel Framebuffer.toggle
  simp only [hr, dite_true]
  by_cases hr' : r' < 32
  · simp only [hr', dite_true]
    by_cases e : r' = r
    · subst e
      simp only [Vector.getElem_set_self, and_true]
      simp only [BitVec.getMsbD, BitVec.getLsbD_xor, BitVec.getLsbD_shiftLeft, BitVec.getLsbD_one]
      by_cases hc' : c' < 64
      · simp only [hc', decide_true, Bool.true_and]
        congr 1
        by_cases e2 : c' = c
        · subst e2; simp; omega
        · simp only [e2, decide_false]
          have : ¬ (63 - c' - (63 - c) = 0 ∧ ¬ (63 - c' < 63 - c)) := by omega
          simp; omega
      · have : ¬ c' = c := by omega
        simp [hc', this]
    · simp [Vector.getElem_set_ne, Ne.symm e, e]
  · simp [hr']; omega

theorem Canvas.pixel_drawPixel (d : Canvas) (px py c r : Nat) :
    Framebuffer.pixel (d.drawPixel px py).fb c r = (Framebuffer.pixel d.fb c r ^^ decide (c = px ∧ r = py ∧ c < 64 ∧ r < 32)) := by
  unfold Canvas.drawPixel
  split
  · next h => rw [Framebuffer.pixel_toggle _ _ _ _ _ h.1 h.2]; congr 1; have h1 : px < 64 := h.1; have h2 : py < 32 := h.2; rw [decide_eq_decide]; omega
  · next h =>
    have : ¬ (c = px ∧ r = py ∧ c < 64 ∧ r < 32) := by rintro ⟨rfl, rfl, h1, h2⟩; exact h ⟨h1, h2⟩
    simp [this]

theorem Canvas.hit_drawPixel (d : Canvas) (px py : Nat) :
    (d.drawPixel px py).hit = (d.hit || (decide (px < 64 ∧ py < 32) && Framebuffer.pixel d.fb px py)) := by
  unfold Canvas.drawPixel
  split
  · next h => simp [h]
  · next h => simp [h]

/-- The pixel at column `c`, row `r` is on the grid and gets a bit of 1 from the columns `cs` of a sprite row. -/
def colBit (row : Byte) (cx py : Nat) (cs : List Nat) (c r : Nat) : Prop :=
  r = py ∧ c < 64 ∧ r < 32 ∧ ∃ k ∈ cs, c = cx + k ∧ row.getLsbD (7 - k) = true

open Classical in
/-- What drawing columns can do: it inverts the pixels that get a bit, and a hit is a bit on a lit one. -/
theorem Canvas.drawColumns_spec (row : Byte) (cx py : Nat) (cs : List Nat) (hn : cs.Nodup) (d : Canvas) :
    (∀ c r, Framebuffer.pixel (d.drawColumns row cx py cs).fb c r = (Framebuffer.pixel d.fb c r ^^ decide (colBit row cx py cs c r))) ∧
    ((d.drawColumns row cx py cs).hit = true ↔ d.hit = true ∨ ∃ c r, colBit row cx py cs c r ∧ Framebuffer.pixel d.fb c r = true) := by
  induction cs generalizing d with
  | nil => simp [Canvas.drawColumns, colBit]
  | cons k cs ih =>
    have hk : k ∉ cs := (List.nodup_cons.1 hn).1
    have ih' := ih (List.nodup_cons.1 hn).2
    unfold Canvas.drawColumns
    by_cases hb : row.getLsbD (7 - k) = true
    · simp only [hb, if_true]
      obtain ⟨p, h⟩ := ih' (d.drawPixel (cx + k) py)
      have split_bit : ∀ c r, colBit row cx py (k :: cs) c r ↔ (c = cx + k ∧ r = py ∧ c < 64 ∧ r < 32) ∨ colBit row cx py cs c r := by
        intro c r; unfold colBit; constructor
        · rintro ⟨h1, h2, h3, j, hj, h4, h5⟩
          rcases List.mem_cons.1 hj with rfl | hj
          · exact Or.inl ⟨h4, h1, h2, h3⟩
          · exact Or.inr ⟨h1, h2, h3, j, hj, h4, h5⟩
        · rintro (⟨h1, h2, h3, h4⟩ | ⟨h1, h2, h3, j, hj, h4, h5⟩)
          · exact ⟨h2, h3, h4, k, by simp, h1, hb⟩
          · exact ⟨h1, h2, h3, j, by simp [hj], h4, h5⟩
      have excl : ∀ c r, (c = cx + k ∧ r = py ∧ c < 64 ∧ r < 32) → ¬ colBit row cx py cs c r := by
        rintro c r ⟨h1, -⟩ ⟨-, -, -, j, hj, h4, -⟩
        have : j = k := by omega
        exact hk (this ▸ hj)
      constructor
      · intro c r
        rw [p, Canvas.pixel_drawPixel, Bool.xor_assoc]
        congr 1
        by_cases h1 : (c = cx + k ∧ r = py ∧ c < 64 ∧ r < 32)
        · have h2 := excl c r h1
          have h3 := (split_bit c r).2 (Or.inl h1)
          simp [h2, h3]; exact ⟨h1.1, h1.2⟩
        · by_cases h2 : colBit row cx py cs c r
          · have h3 := (split_bit c r).2 (Or.inr h2)
            simp only [decide_eq_true h2, decide_eq_true h3, decide_eq_false h1]; rfl
          · have h3 : ¬ colBit row cx py (k :: cs) c r := fun h => ((split_bit c r).1 h).elim h1 h2
            simp only [decide_eq_false h2, decide_eq_false h3, decide_eq_false h1]; rfl
      · rw [h, Canvas.hit_drawPixel]
        simp only [Bool.or_eq_true, Bool.and_eq_true, decide_eq_true_eq, or_assoc]
        apply or_congr_right
        constructor
        · rintro (⟨⟨h1, h2⟩, h3⟩ | ⟨c, r, h1, h2⟩)
          · exact ⟨cx + k, py, (split_bit _ _).2 (Or.inl ⟨rfl, rfl, h1, h2⟩), h3⟩
          · rw [Canvas.pixel_drawPixel] at h2
            have : ¬ (c = cx + k ∧ r = py ∧ c < 64 ∧ r < 32) := fun h => excl c r h h1
            simp only [decide_eq_false this, Bool.xor_false] at h2
            exact ⟨c, r, (split_bit _ _).2 (Or.inr h1), h2⟩
        · rintro ⟨c, r, h1, h2⟩
          rcases (split_bit c r).1 h1 with h1 | h1
          · obtain ⟨rfl, rfl, h3, h4⟩ := h1
            exact Or.inl ⟨⟨h3, h4⟩, h2⟩
          · refine Or.inr ⟨c, r, h1, ?_⟩
            have : ¬ (c = cx + k ∧ r = py ∧ c < 64 ∧ r < 32) := fun h => excl c r h h1
            rw [Canvas.pixel_drawPixel]
            simp only [decide_eq_false this, Bool.xor_false]; exact h2
    · have split_bit : ∀ c r, colBit row cx py (k :: cs) c r ↔ colBit row cx py cs c r := by
        intro c r; unfold colBit; constructor
        · rintro ⟨h1, h2, h3, j, hj, h4, h5⟩
          rcases List.mem_cons.1 hj with rfl | hj
          · exact absurd h5 hb
          · exact ⟨h1, h2, h3, j, hj, h4, h5⟩
        · rintro ⟨h1, h2, h3, j, hj, h4, h5⟩
          exact ⟨h1, h2, h3, j, by simp [hj], h4, h5⟩
      simp only [hb, split_bit]
      exact ih' d

/-- The pixel at column `c`, row `r` is on the grid and gets a bit of 1 from a sprite of these rows. -/
def rowsBit (rows : List Byte) (cx cy c r : Nat) : Prop :=
  c < 64 ∧ r < 32 ∧ cy ≤ r ∧ ∃ row, rows[r - cy]? = some row ∧ cx ≤ c ∧ c < cx + 8 ∧ row.getLsbD (7 - (c - cx)) = true

open Classical in
/-- What drawing a sprite can do: it inverts the pixels that get a bit, and a hit is a bit on a lit one. -/
theorem Canvas.drawRows_spec (rows : List Byte) (cx cy : Nat) (d : Canvas) :
    (∀ c r, Framebuffer.pixel (d.drawRows cx cy rows).fb c r = (Framebuffer.pixel d.fb c r ^^ decide (rowsBit rows cx cy c r))) ∧
    ((d.drawRows cx cy rows).hit = true ↔ d.hit = true ∨ ∃ c r, rowsBit rows cx cy c r ∧ Framebuffer.pixel d.fb c r = true) := by
  induction rows generalizing d cy with
  | nil => simp [Canvas.drawRows, rowsBit]
  | cons row rows ih =>
    unfold Canvas.drawRows
    obtain ⟨p1, h1⟩ := Canvas.drawColumns_spec row cx cy (List.range 8) List.nodup_range d
    obtain ⟨p2, h2⟩ := ih (cy + 1) (d.drawColumns row cx cy (List.range 8))
    have sb : ∀ c r, rowsBit (row :: rows) cx cy c r ↔ colBit row cx cy (List.range 8) c r ∨ rowsBit rows cx (cy+1) c r := by
      intro c r; unfold rowsBit colBit; constructor
      · rintro ⟨a, b, e, w, hw, f, g, h⟩
        by_cases hr : r = cy
        · subst hr
          simp at hw; subst hw
          exact Or.inl ⟨rfl, a, b, c - cx, by simp; omega, by omega, h⟩
        · have : r - cy = (r - (cy+1)) + 1 := by omega
          rw [this, List.getElem?_cons_succ] at hw
          exact Or.inr ⟨a, b, by omega, w, hw, f, g, h⟩
      · rintro (⟨rfl, a, b, k, hk, rfl, h⟩ | ⟨a, b, e, w, hw, f, g, h⟩)
        · simp at hk
          exact ⟨a, b, le_refl _, row, by simp, by omega, by omega, by simpa using h⟩
        · refine ⟨a, b, by omega, w, ?_, f, g, h⟩
          have : r - cy = (r - (cy+1)) + 1 := by omega
          rw [this, List.getElem?_cons_succ]; exact hw
    have excl : ∀ c r, colBit row cx cy (List.range 8) c r → ¬ rowsBit rows cx (cy+1) c r := by
      rintro c r ⟨rfl, -⟩ ⟨-, -, h, -⟩; omega
    constructor
    · intro c r
      rw [p2, p1, Bool.xor_assoc]
      congr 1
      by_cases a : colBit row cx cy (List.range 8) c r
      · have b := excl c r a
        have e := (sb c r).2 (Or.inl a)
        simp only [decide_eq_true a, decide_eq_true e, decide_eq_false b]; rfl
      · by_cases b : rowsBit rows cx (cy+1) c r
        · have e := (sb c r).2 (Or.inr b)
          simp only [decide_eq_false a, decide_eq_true e, decide_eq_true b]; rfl
        · have e : ¬ rowsBit (row :: rows) cx cy c r := fun h => ((sb c r).1 h).elim a b
          simp only [decide_eq_false a, decide_eq_false e, decide_eq_false b]; rfl
    · rw [h2, h1, or_assoc]
      apply or_congr_right
      constructor
      · rintro (⟨c, r, a, b⟩ | ⟨c, r, a, b⟩)
        · exact ⟨c, r, (sb c r).2 (Or.inl a), b⟩
        · rw [p1] at b
          have : ¬ colBit row cx cy (List.range 8) c r := fun h => excl c r h a
          simp only [decide_eq_false this, Bool.xor_false] at b
          exact ⟨c, r, (sb c r).2 (Or.inr a), b⟩
      · rintro ⟨c, r, a, b⟩
        rcases (sb c r).1 a with a | a
        · exact Or.inl ⟨c, r, a, b⟩
        · refine Or.inr ⟨c, r, a, ?_⟩
          have : ¬ colBit row cx cy (List.range 8) c r := fun h => excl c r h a
          rw [p1]; simp only [decide_eq_false this, Bool.xor_false]; exact b

/-- The sprite read from MEM gives a bit of 1 exactly where `spriteBit` says. -/
theorem rowsBit_iff (s : State) (cx cy n c r : Nat) (hc : c < 64) (hr : r < 32) :
    rowsBit (s.bytesFrom s.i.toNat n) cx cy c r ↔ spriteBit s cx cy n c r = true := by
  unfold rowsBit spriteBit
  simp only [Bool.and_eq_true, decide_eq_true_eq]
  constructor
  · rintro ⟨-, -, h, w, hw, h1, h2, h3⟩
    have hl : r - cy < n := by
      by_contra hh
      rw [List.getElem?_eq_none (by simp; omega)] at hw; cases hw
    rw [s.getElem?_bytesFrom _ _ _ hl] at hw
    obtain rfl := Option.some.inj hw
    exact ⟨⟨h1, h2, h, by omega⟩, h3⟩
  · rintro ⟨⟨h1, h2, h3, h4⟩, h5⟩
    exact ⟨hc, hr, h3, _, s.getElem?_bytesFrom _ _ _ (by omega), h1, h2, h5⟩

/-- Framebuffers with the same pixels on the grid are equal. -/
theorem Framebuffer.ext_pixel (f g : Framebuffer) (h : ∀ c r, c < 64 → r < 32 → Framebuffer.pixel f c r = Framebuffer.pixel g c r) : f = g := by
  apply Vector.ext
  intro r hr
  apply BitVec.eq_of_getMsbD_eq
  intro c hc
  have := h c r hc hr
  unfold Framebuffer.pixel at this
  simp only [show r < fbHeight from hr, dite_true] at this
  exact this

end Sys2Proof.Machine
end

