-- ==== Sys2Proof/Laws/Registers.lean ====
section
/-! SUPPORT. Laws of the general registers: read after write, and registers written or read in a row. -/

namespace Sys2Proof.Machine

variable (s : State)

@[simp] theorem State.reg_setReg_same (x : RegIdx) (b : Byte) : (s.setReg x b).reg x = b := by
  simp [State.reg, State.setReg]

theorem State.reg_setReg_of_ne {x r : RegIdx} (h : r ≠ x) (b : Byte) : (s.setReg x b).reg r = s.reg r := by
  have : x.val ≠ r.val := fun e => h (Fin.ext e.symm)
  simp [State.reg, State.setReg, Vector.getElem_set_ne, this]

theorem State.reg_setReg (x r : RegIdx) (b : Byte) :
    (s.setReg x b).reg r = if r = x then b else s.reg r := by
  split
  · next h => subst h; simp
  · next h => exact s.reg_setReg_of_ne h b

theorem State.reg_setFlag (r : RegIdx) (b : Byte) :
    (s.setFlag b).reg r = if r = VF then b else s.reg r := s.reg_setReg VF r b

@[simp] theorem State.reg_advance (r : RegIdx) : s.advance.reg r = s.reg r := rfl
@[simp] theorem State.reg_skipIf (c : Bool) (r : RegIdx) : (s.skipIf c).reg r = s.reg r := rfl
@[simp] theorem State.reg_jump (w : Word) (r : RegIdx) : (s.jump w).reg r = s.reg r := rfl
@[simp] theorem State.reg_raise (e : ExecError) (op addr : Word) (r : RegIdx) :
    (s.raise e op addr).reg r = s.reg r := rfl

/-- What `putRegs` can do: it writes `v` only, and register `r` gets the byte of its place if there is one. -/
theorem State.putRegs_frame (bs : List Byte) (k : Nat) :
    s.putRegs k bs = { s with v := (s.putRegs k bs).v } := by
  induction bs generalizing s k with
  | nil => rfl
  | cons b bs ih =>
    unfold State.putRegs
    split
    · rw [ih]; rfl
    · rfl

theorem State.reg_putRegs (bs : List Byte) (k : Nat) (r : RegIdx) :
    (s.putRegs k bs).reg r =
      if k ≤ r.val then (bs[r.val - k]?).getD (s.reg r) else s.reg r := by
  induction bs generalizing s k with
  | nil => simp [State.putRegs]
  | cons b bs ih =>
    unfold State.putRegs
    split
    · next h =>
      rw [ih, State.reg_setReg]
      rcases Nat.lt_trichotomy r.val k with hr | hr | hr
      · have h1 : ¬ k ≤ r.val := by omega
        have h2 : ¬ k + 1 ≤ r.val := by omega
        have h3 : r ≠ ⟨k, h⟩ := fun e => by simp [e] at hr
        simp [h1, h2, h3]
      · have h3 : r = ⟨k, h⟩ := Fin.ext hr
        subst h3
        simp
      · have h1 : k ≤ r.val := by omega
        have h2 : k + 1 ≤ r.val := by omega
        have h3 : r ≠ ⟨k, h⟩ := fun e => by simp [e] at hr
        have h4 : r.val - k = (r.val - (k + 1)) + 1 := by omega
        simp [h1, h2, h3, h4]
    · next h =>
      have := r.isLt
      have h1 : ¬ k ≤ r.val := by omega
      simp [h1]

@[simp] theorem State.length_regsUpTo (x : RegIdx) : (s.regsUpTo x).length = x.val + 1 := by
  have := x.isLt
  simp [State.regsUpTo]

theorem State.getElem?_regsUpTo (x r : RegIdx) (h : r ≤ x) : (s.regsUpTo x)[r.val]? = some (s.reg r) := by
  have h1 : r.val < x.val + 1 := Nat.lt_succ_of_le h
  simp [State.regsUpTo, State.reg, h1]

end Sys2Proof.Machine
end

