-- ==== Sys2Proof/Laws/Frame.lean ====
section
/-! SUPPORT. What the shared operations change: a frame for each shape of update, and what taking an error leaves. -/

namespace Sys2Proof.Machine

variable (s : State)

/-! ### Composing frames -/

theorem ChangesOnly.sameStatus {s t : State} {ps : List Part} (h : ChangesOnly s t ps) : SameStatus s t := by
  obtain ⟨-, -, -, -, -, -, -, -, h1, h2, h3, h4, h5, -, -⟩ := h
  exact ⟨h1, h2, h3, h4, h5⟩

theorem SameCore.refl : SameCore s s :=
  ⟨rfl, rfl, rfl, rfl, rfl, rfl, rfl, rfl, rfl, fun _ => rfl, rfl⟩

theorem SameCore.trans {s t u : State} (h : SameCore s t) (k : SameCore t u) : SameCore s u := by
  obtain ⟨a1, a2, a3, a4, a5, a6, a7, a8, a9, a10, a11⟩ := h
  obtain ⟨b1, b2, b3, b4, b5, b6, b7, b8, b9, b10, b11⟩ := k
  exact ⟨b1.trans a1, b2.trans a2, b3.trans a3, b4.trans a4, b5.trans a5, b6.trans a6, b7.trans a7, b8.trans a8,
    b9.trans a9, fun a => (b10 a).trans (a10 a), b11.trans a11⟩

theorem SameStatus.refl : SameStatus s s := ⟨rfl, rfl, rfl, rfl, rfl⟩

theorem SameStatus.trans {s t u : State} (h : SameStatus s t) (k : SameStatus t u) : SameStatus s u := by
  obtain ⟨a1, a2, a3, a4, a5⟩ := h
  obtain ⟨b1, b2, b3, b4, b5⟩ := k
  exact ⟨b1.trans a1, b2.trans a2, b3.trans a3, b4.trans a4, b5.trans a5⟩

/-! ### A frame for each shape of update -/

theorem changesOnly_pc (p : Word) : ChangesOnly s { s with pc := p } [] := by
  refine ⟨?_, ?_, ?_, ?_, ?_, ?_, ?_, rfl, rfl, rfl, rfl, rfl, rfl, rfl, rfl⟩ <;> intros <;>
    first | rfl | exact ⟨rfl, rfl⟩

theorem changesOnly_setReg (x : RegIdx) (b : Byte) (p : Word) :
    ChangesOnly s { s.setReg x b with pc := p } [.reg x] := by
  refine ⟨?_, ?_, ?_, ?_, ?_, ?_, ?_, rfl, rfl, rfl, rfl, rfl, rfl, rfl, rfl⟩
  · intro r hr _
    simp at hr
    exact s.reg_setReg_of_ne hr b
  all_goals intros; first | rfl | exact ⟨rfl, rfl⟩

theorem changesOnly_setFlag_setReg (x : RegIdx) (b c : Byte) (p : Word) :
    ChangesOnly s { (s.setFlag c).setReg x b with pc := p } [.reg x, .reg VF] := by
  refine ⟨?_, ?_, ?_, ?_, ?_, ?_, ?_, rfl, rfl, rfl, rfl, rfl, rfl, rfl, rfl⟩
  · intro r hr _
    simp at hr
    exact ((s.setFlag c).reg_setReg_of_ne hr.1 b).trans (s.reg_setReg_of_ne hr.2 c)
  all_goals intros; first | rfl | exact ⟨rfl, rfl⟩

theorem changesOnly_index (i p : Word) : ChangesOnly s { s with i := i, pc := p } [.index] := by
  refine ⟨?_, ?_, ?_, ?_, ?_, ?_, ?_, rfl, rfl, rfl, rfl, rfl, rfl, rfl, rfl⟩ <;> intros <;>
    first | rfl | exact ⟨rfl, rfl⟩ | simp_all

theorem changesOnly_putBytes (bs : List Byte) (a : Nat) (p : Word) :
    ChangesOnly s { s.putBytes a bs with pc := p } [.bytes a bs.length] := by
  rw [s.putBytes_frame bs a]
  refine ⟨?_, ?_, ?_, ?_, ?_, ?_, ?_, rfl, rfl, rfl, rfl, rfl, rfl, rfl, rfl⟩
  · intros; rfl
  all_goals intros
  all_goals try first | rfl | exact ⟨rfl, rfl⟩
  rename_i b hb
  refine Eq.trans (b := (s.putBytes a bs).readByte b) (by rw [s.putBytes_frame]; rfl) ?_
  rw [s.readByte_putBytes]
  have := hb a bs.length (by simp)
  split
  · have : bs.length ≤ b - a := by omega
    simp [this]
  · rfl

theorem changesOnly_display (fb : Framebuffer) (b : Byte) :
    ChangesOnly s (({ s with fb := fb }).setFlag b).advance [.display, .reg VF] := by
  refine ⟨?_, ?_, ?_, ?_, ?_, ?_, ?_, rfl, rfl, rfl, rfl, rfl, rfl, rfl, rfl⟩
  · intro r hr _
    simp at hr
    exact State.reg_setReg_of_ne _ hr b
  all_goals intros
  all_goals first | rfl | exact ⟨rfl, rfl⟩ | simp_all

/-! ### Taking an error -/

/-- What taking an error leaves (R107). -/
theorem entersError_raise (e : ExecError) (op addr : Word) : EntersError s (s.raise e op addr) e.code op addr :=
  ⟨rfl, rfl, rfl, rfl, rfl, rfl, SameCore.refl s⟩

theorem ExecError.code_range (e : ExecError) :
    1 ≤ e.code.toNat ∧ e.code.toNat ≤ 6 ∧ (e.code = 5 ↔ e = .memoryOutOfBounds) := by
  cases e <;> decide

/-- An ERR_ADDR of MemoryOutOfBounds is outside MEM. -/
theorem le_rangeErrAddr (a : Word) : 0x1000 ≤ (rangeErrAddr a.toNat).toNat := by
  simp only [rangeErrAddr, trunc16, BitVec.toNat_ofNat]
  have := a.isLt
  omega

/-! ### Checked ranges -/

theorem rangeOk_of_le {a n : Nat} (h : a + n ≤ 4096) : rangeOk a n = true := (rangeOk_iff a n).2 (.inr h)

theorem rangeOk_of_not_le {a n : Nat} (hn : 0 < n) (h : ¬ a + n ≤ 4096) : rangeOk a n = false := by
  cases hh : rangeOk a n
  · rfl
  · rcases (rangeOk_iff a n).1 hh with h1 | h1
    · omega
    · exact absurd h1 h

theorem State.storeBytes_of_le {a : Nat} {bs : List Byte} (h : a + bs.length ≤ 4096) :
    s.storeBytes a bs = some (s.putBytes a bs) := by
  simp [State.storeBytes, rangeOk_of_le h]

theorem State.storeBytes_of_not_le {a : Nat} {bs : List Byte} (hn : 0 < bs.length) (h : ¬ a + bs.length ≤ 4096) :
    s.storeBytes a bs = none := by
  simp [State.storeBytes, rangeOk_of_not_le hn h]

theorem State.loadBytes_of_le {a n : Nat} (h : a + n ≤ 4096) : s.loadBytes a n = some (s.bytesFrom a n) := by
  simp [State.loadBytes, rangeOk_of_le h]

theorem State.loadBytes_of_not_le {a n : Nat} (hn : 0 < n) (h : ¬ a + n ≤ 4096) : s.loadBytes a n = none := by
  simp [State.loadBytes, rangeOk_of_not_le hn h]

/-! ### Stored bytes -/

theorem overlaid_of_inside {n a : Nat} (stored : Nat → Byte) (h : s.i.toNat ≤ a ∧ a < s.i.toNat + n) :
    overlaid s n stored a = stored (a - s.i.toNat) := if_pos h

theorem overlaid_of_outside {n a : Nat} (stored : Nat → Byte) (h : a < s.i.toNat ∨ s.i.toNat + n ≤ a) :
    overlaid s n stored a = s.readByte a := if_neg (by omega)

/-- What a byte reads as after a store from I upward. -/
theorem State.readByte_putBytes_eq_overlaid (bs : List Byte) (a : Nat) :
    (s.putBytes s.i.toNat bs).readByte a = overlaid s bs.length (fun k => (bs[k]?).getD 0) a := by
  rw [s.readByte_putBytes]
  by_cases h : s.i.toNat ≤ a ∧ a < s.i.toNat + bs.length
  · rw [overlaid_of_inside s _ h, if_pos h.1, List.getElem?_eq_getElem (by omega)]
    rfl
  · rw [overlaid_of_outside s _ (by omega)]
    split
    · rw [List.getElem?_eq_none (by omega)]
      rfl
    · rfl

/-! ### The keypad -/

theorem State.lowestKey_eq_none (h : ∀ k < 16, s.host.key.getLsbD k = false) : s.lowestKey = none := by
  simp [State.lowestKey, State.keyPressed]
  exact h

theorem State.lowestKey_eq_some {k : Nat} (hk : k < 16) (h : s.host.key.getLsbD k = true)
    (hl : ∀ j < k, s.host.key.getLsbD j = false) : s.lowestKey = some k := by
  unfold State.lowestKey
  rw [List.find?_range_eq_some]
  simp [State.keyPressed, h, hk]
  exact hl

end Sys2Proof.Machine
end

