-- ==== Sys2Proof/Laws/PerInstr.lean ====
section
/-! SUPPORT. The family EncodeMatchesRow, per instruction: the encoder's word is a word of the instruction's own row
of the opcode map (R58). -/

namespace Sys2Proof.Laws.EncodeMatchesRow

/-- The word of `i` is selected by a row of R58 with the mnemonic of `i`. -/
def Statement (i : Instr) : Prop :=
  ∃ r ∈ opcodeRows, r.mnemonic = i.mnemonic ∧ r.selects (encode i) = true

theorem cls : Statement (.cls) :=
  ⟨⟨"CLS", 0x00E0, 0xFFFF⟩, by decide, rfl, by decide⟩

theorem ret : Statement (.ret) :=
  ⟨⟨"RET", 0x00EE, 0xFFFF⟩, by decide, rfl, by decide⟩

theorem jp (nnn : Addr) : Statement (.jp nnn) :=
  ⟨⟨"JP", 0x1000, 0xF000⟩, by decide, rfl, OpcodeRow.selects_of_and (formAddr_and_F000 _ _)⟩

theorem call (nnn : Addr) : Statement (.call nnn) :=
  ⟨⟨"CALL", 0x2000, 0xF000⟩, by decide, rfl, OpcodeRow.selects_of_and (formAddr_and_F000 _ _)⟩

theorem seImm (x : RegIdx) (nn : Byte) : Statement (.seImm x nn) :=
  ⟨⟨"SE_imm", 0x3000, 0xF000⟩, by decide, rfl, OpcodeRow.selects_of_and (formByte_and_F000 _ _ _)⟩

theorem sneImm (x : RegIdx) (nn : Byte) : Statement (.sneImm x nn) :=
  ⟨⟨"SNE_imm", 0x4000, 0xF000⟩, by decide, rfl, OpcodeRow.selects_of_and (formByte_and_F000 _ _ _)⟩

theorem seReg (x : RegIdx) (y : RegIdx) : Statement (.seReg x y) :=
  ⟨⟨"SE_reg", 0x5000, 0xF00F⟩, by decide, rfl, OpcodeRow.selects_of_and (formNibble_and_F00F _ _ _ _)⟩

theorem ldImm (x : RegIdx) (nn : Byte) : Statement (.ldImm x nn) :=
  ⟨⟨"LD_imm", 0x6000, 0xF000⟩, by decide, rfl, OpcodeRow.selects_of_and (formByte_and_F000 _ _ _)⟩

theorem addImm (x : RegIdx) (nn : Byte) : Statement (.addImm x nn) :=
  ⟨⟨"ADD_imm", 0x7000, 0xF000⟩, by decide, rfl, OpcodeRow.selects_of_and (formByte_and_F000 _ _ _)⟩

theorem ldReg (x : RegIdx) (y : RegIdx) : Statement (.ldReg x y) :=
  ⟨⟨"LD_reg", 0x8000, 0xF00F⟩, by decide, rfl, OpcodeRow.selects_of_and (formNibble_and_F00F _ _ _ _)⟩

theorem orReg (x : RegIdx) (y : RegIdx) : Statement (.orReg x y) :=
  ⟨⟨"OR", 0x8001, 0xF00F⟩, by decide, rfl, OpcodeRow.selects_of_and (formNibble_and_F00F _ _ _ _)⟩

theorem andReg (x : RegIdx) (y : RegIdx) : Statement (.andReg x y) :=
  ⟨⟨"AND", 0x8002, 0xF00F⟩, by decide, rfl, OpcodeRow.selects_of_and (formNibble_and_F00F _ _ _ _)⟩

theorem xorReg (x : RegIdx) (y : RegIdx) : Statement (.xorReg x y) :=
  ⟨⟨"XOR", 0x8003, 0xF00F⟩, by decide, rfl, OpcodeRow.selects_of_and (formNibble_and_F00F _ _ _ _)⟩

theorem addReg (x : RegIdx) (y : RegIdx) : Statement (.addReg x y) :=
  ⟨⟨"ADD_reg", 0x8004, 0xF00F⟩, by decide, rfl, OpcodeRow.selects_of_and (formNibble_and_F00F _ _ _ _)⟩

theorem sub (x : RegIdx) (y : RegIdx) : Statement (.sub x y) :=
  ⟨⟨"SUB", 0x8005, 0xF00F⟩, by decide, rfl, OpcodeRow.selects_of_and (formNibble_and_F00F _ _ _ _)⟩

theorem shr (x : RegIdx) (y : RegIdx) : Statement (.shr x y) :=
  ⟨⟨"SHR", 0x8006, 0xF00F⟩, by decide, rfl, OpcodeRow.selects_of_and (formNibble_and_F00F _ _ _ _)⟩

theorem subn (x : RegIdx) (y : RegIdx) : Statement (.subn x y) :=
  ⟨⟨"SUBN", 0x8007, 0xF00F⟩, by decide, rfl, OpcodeRow.selects_of_and (formNibble_and_F00F _ _ _ _)⟩

theorem shl (x : RegIdx) (y : RegIdx) : Statement (.shl x y) :=
  ⟨⟨"SHL", 0x800E, 0xF00F⟩, by decide, rfl, OpcodeRow.selects_of_and (formNibble_and_F00F _ _ _ _)⟩

theorem sneReg (x : RegIdx) (y : RegIdx) : Statement (.sneReg x y) :=
  ⟨⟨"SNE_reg", 0x9000, 0xF00F⟩, by decide, rfl, OpcodeRow.selects_of_and (formNibble_and_F00F _ _ _ _)⟩

theorem ldI (nnn : Addr) : Statement (.ldI nnn) :=
  ⟨⟨"LD_I", 0xA000, 0xF000⟩, by decide, rfl, OpcodeRow.selects_of_and (formAddr_and_F000 _ _)⟩

theorem rnd (x : RegIdx) (nn : Byte) : Statement (.rnd x nn) :=
  ⟨⟨"RND", 0xC000, 0xF000⟩, by decide, rfl, OpcodeRow.selects_of_and (formByte_and_F000 _ _ _)⟩

theorem drw (x : RegIdx) (y : RegIdx) (n : Nibble) : Statement (.drw x y n) :=
  ⟨⟨"DRW", 0xD000, 0xF000⟩, by decide, rfl, OpcodeRow.selects_of_and (formNibble_and_F000 _ _ _ _)⟩

theorem skp (x : RegIdx) : Statement (.skp x) :=
  ⟨⟨"SKP", 0xE09E, 0xF0FF⟩, by decide, rfl, OpcodeRow.selects_of_and (formByte_and_F0FF _ _ _)⟩

theorem sknp (x : RegIdx) : Statement (.sknp x) :=
  ⟨⟨"SKNP", 0xE0A1, 0xF0FF⟩, by decide, rfl, OpcodeRow.selects_of_and (formByte_and_F0FF _ _ _)⟩

theorem ldVxDt (x : RegIdx) : Statement (.ldVxDt x) :=
  ⟨⟨"LD_Vx_DT", 0xF007, 0xF0FF⟩, by decide, rfl, OpcodeRow.selects_of_and (formByte_and_F0FF _ _ _)⟩

theorem ldVxK (x : RegIdx) : Statement (.ldVxK x) :=
  ⟨⟨"LD_Vx_K", 0xF00A, 0xF0FF⟩, by decide, rfl, OpcodeRow.selects_of_and (formByte_and_F0FF _ _ _)⟩

theorem ldDtVx (x : RegIdx) : Statement (.ldDtVx x) :=
  ⟨⟨"LD_DT_Vx", 0xF015, 0xF0FF⟩, by decide, rfl, OpcodeRow.selects_of_and (formByte_and_F0FF _ _ _)⟩

theorem ldStVx (x : RegIdx) : Statement (.ldStVx x) :=
  ⟨⟨"LD_ST_Vx", 0xF018, 0xF0FF⟩, by decide, rfl, OpcodeRow.selects_of_and (formByte_and_F0FF _ _ _)⟩

theorem addI (x : RegIdx) : Statement (.addI x) :=
  ⟨⟨"ADD_I", 0xF01E, 0xF0FF⟩, by decide, rfl, OpcodeRow.selects_of_and (formByte_and_F0FF _ _ _)⟩

theorem ldF (x : RegIdx) : Statement (.ldF x) :=
  ⟨⟨"LD_F", 0xF029, 0xF0FF⟩, by decide, rfl, OpcodeRow.selects_of_and (formByte_and_F0FF _ _ _)⟩

theorem ldB (x : RegIdx) : Statement (.ldB x) :=
  ⟨⟨"LD_B", 0xF033, 0xF0FF⟩, by decide, rfl, OpcodeRow.selects_of_and (formByte_and_F0FF _ _ _)⟩

theorem ldStore (x : RegIdx) : Statement (.ldStore x) :=
  ⟨⟨"LD_store", 0xF055, 0xF0FF⟩, by decide, rfl, OpcodeRow.selects_of_and (formByte_and_F0FF _ _ _)⟩

theorem ldLoad (x : RegIdx) : Statement (.ldLoad x) :=
  ⟨⟨"LD_load", 0xF065, 0xF0FF⟩, by decide, rfl, OpcodeRow.selects_of_and (formByte_and_F0FF _ _ _)⟩

end Sys2Proof.Laws.EncodeMatchesRow
end

