-- ==== Sys2Proof/Laws/Step.lean ====
section
/-! SUPPORT. Laws of one operation of the host: which operation a step is, what latching the inputs leaves, and runs
of several steps. -/

namespace Sys2Proof.Machine

variable (s : State)

/-! ### Which operation a step is -/

theorem step_of_load {image : List Byte} (h : s.pendingLoad = some image) :
    step s = .next (s.popPending.load image) := by
  simp [step, State.nextOp, h]

theorem step_of_no_load (h : s.pendingLoad = none) : step s = s.takeInputs.stepOp := by
  simp [step, State.nextOp, h]

theorem step_of_ready (hs : s.status = .ready) (h : s.pendingLoad = none) : step s = s.takeInputs.cycle := by
  rw [step_of_no_load s h]
  simp [State.stepOp, hs]

theorem step_of_halted (hs : s.status = .halted) (h : s.pendingLoad = none) :
    step s = .next (s.takeInputs.withResult (.error s.errCode)) := by
  rw [step_of_no_load s h]
  simp [State.stepOp, hs]

/-! ### Latching the inputs -/

@[simp] theorem State.fetch_takeInputs : s.takeInputs.fetch = s.fetch := rfl

@[simp] theorem State.readByte_takeInputs (a : Nat) : s.takeInputs.readByte a = s.readByte a := rfl

@[simp] theorem State.reg_takeInputs (r : RegIdx) : s.takeInputs.reg r = s.reg r := rfl

/-- With no LOAD queued the next operation is a STEP, and there is still none queued after it. -/
theorem NoLoadPending.takeInputs (h : NoLoadPending s) :
    s.pendingLoad = none ∧ NoLoadPending s.takeInputs := by
  unfold NoLoadPending at *
  constructor
  · unfold State.pendingLoad
    split
    · next image rest e => exact absurd (by rw [e]; simp) (h image)
    · rfl
  · intro image
    simp only [State.takeInputs_host, HostPort.takeInputs]
    split
    · next key rnd rest e =>
      have := h image
      rw [e] at this
      simp at this ⊢
      exact this
    · exact h image

/-! ### The end of a step -/

theorem State.retire_of_halted (hs : s.status = .halted) : s.retire = .next s := by
  simp [State.retire, hs]

theorem State.retire_of_running (hs : s.status ≠ .halted) (hd : 1 ≤ s.div) :
    s.retire = .next (s.divAdvance.withResult .ok) := by
  simp [State.retire, hs, State.dividerOk, hd]

theorem toNat_tickDown : ∀ b : Byte, (tickDown b).toNat = b.toNat - 1 := by decide

/-! ### Runs -/

theorem run_succ_of_next {k : Nat} {s t : State} (h : step s = .next t) :
    core.run (k + 1) s = core.run k t := by
  have h' : core.step s = Host.Outcome.next t := h
  simp only [Host.Core.run, h']

theorem run_succ_eq_next {k : Nat} {s u : State} :
    core.run (k + 1) s = .next u ↔ ∃ t, step s = .next t ∧ core.run k t = .next u := by
  constructor
  · intro h
    cases hs : step s with
    | next t => exact ⟨t, rfl, (run_succ_of_next hs).symm.trans h⟩
    | fault r =>
      have h' : core.step s = Host.Outcome.fault r := hs
      simp only [Host.Core.run, h'] at h
      cases h
    | refused r =>
      have h' : core.step s = Host.Outcome.refused r := hs
      simp only [Host.Core.run, h'] at h
      cases h
  · rintro ⟨t, hs, h⟩
    exact (run_succ_of_next hs).trans h

end Sys2Proof.Machine
end

