-- ==== Sys2Proof/Tests/Slice0.lean ====
section
/-! SUPPORT. The model's own tests. Every expected value is the spec's: words are written out from the bit strings of
R55 and the match column of R58, and results are rows of 95_test_vectors.md or the "Example" of an instruction's rule.
The last part shows, for each statement that has hypotheses, concrete values that meet them together, at the boundary
of each clause. -/

namespace Sys2Proof.Tests

open Sys2Proof Sys2Proof.Machine

/-! ### Well-formedness: the checks refuse an ill-formed parameter and an oversize image -/

theorem test_wellFormed_standard : Config.standard.WellFormed = true := by decide

theorem test_wellFormed_refuses_zero_cyclesPerTick :
    ({ Config.standard with cyclesPerTick := 0 } : Config).WellFormed = false := by decide

/-- The largest image (R6). -/
def largestImage : List Byte := List.replicate 3584 0xAB

/-- One byte more than the largest image. -/
def oversizeImage : List Byte := List.replicate 3585 0xAB

theorem length_largestImage : largestImage.length = 3584 := List.length_replicate
theorem length_oversizeImage : oversizeImage.length = 3585 := List.length_replicate

theorem test_imageFits_largest : imageFits largestImage = true := by
  rw [imageFits, length_largestImage]
  decide

theorem test_imageFits_refuses_oversize : imageFits oversizeImage = false := by
  rw [imageFits, length_oversizeImage]
  decide

/-! ### Decoding: one word of every constructor, written out bit by bit from R55 and R58 -/

theorem test_decode_cls : decode 0b0000_0000_1110_0000 = .instr .cls := by decide
theorem test_decode_ret : decode 0b0000_0000_1110_1110 = .instr .ret := by decide
theorem test_decode_jp : decode 0b0001_0010_0011_0100 = .instr (.jp 0x234) := by decide
theorem test_decode_call : decode 0b0010_1010_1011_1100 = .instr (.call 0xABC) := by decide
theorem test_decode_seImm : decode 0b0011_1010_0100_0010 = .instr (.seImm 10 0x42) := by decide
theorem test_decode_sneImm : decode 0b0100_0101_1000_0001 = .instr (.sneImm 5 0x81) := by decide
theorem test_decode_seReg : decode 0b0101_0001_0010_0000 = .instr (.seReg 1 2) := by decide
theorem test_decode_ldImm : decode 0b0110_1010_0101_1100 = .instr (.ldImm 10 0x5C) := by decide
theorem test_decode_addImm : decode 0b0111_1111_0000_0001 = .instr (.addImm 15 0x01) := by decide
theorem test_decode_ldReg : decode 0b1000_0001_0010_0000 = .instr (.ldReg 1 2) := by decide
theorem test_decode_orReg : decode 0b1000_0011_0100_0001 = .instr (.orReg 3 4) := by decide
theorem test_decode_andReg : decode 0b1000_0011_0100_0010 = .instr (.andReg 3 4) := by decide
theorem test_decode_xorReg : decode 0b1000_0011_0100_0011 = .instr (.xorReg 3 4) := by decide
theorem test_decode_addReg : decode 0b1000_0001_1111_0100 = .instr (.addReg 1 15) := by decide
theorem test_decode_sub : decode 0b1000_1111_0001_0101 = .instr (.sub 15 1) := by decide
theorem test_decode_shr : decode 0b1000_0100_0101_0110 = .instr (.shr 4 5) := by decide
theorem test_decode_subn : decode 0b1000_0001_0010_0111 = .instr (.subn 1 2) := by decide
theorem test_decode_shl : decode 0b1000_0100_0101_1110 = .instr (.shl 4 5) := by decide
theorem test_decode_sneReg : decode 0b1001_0001_0010_0000 = .instr (.sneReg 1 2) := by decide
theorem test_decode_ldI : decode 0b1010_0010_1111_0000 = .instr (.ldI 0x2F0) := by decide
theorem test_decode_rnd : decode 0b1100_0011_0000_1111 = .instr (.rnd 3 0x0F) := by decide
theorem test_decode_drw : decode 0b1101_0001_0010_0101 = .instr (.drw 1 2 5) := by decide
theorem test_decode_skp : decode 0b1110_0010_1001_1110 = .instr (.skp 2) := by decide
theorem test_decode_sknp : decode 0b1110_0010_1010_0001 = .instr (.sknp 2) := by decide
theorem test_decode_ldVxDt : decode 0b1111_0011_0000_0111 = .instr (.ldVxDt 3) := by decide
theorem test_decode_ldVxK : decode 0b1111_0100_0000_1010 = .instr (.ldVxK 4) := by decide
theorem test_decode_ldDtVx : decode 0b1111_0101_0001_0101 = .instr (.ldDtVx 5) := by decide
theorem test_decode_ldStVx : decode 0b1111_0110_0001_1000 = .instr (.ldStVx 6) := by decide
theorem test_decode_addI : decode 0b1111_0111_0001_1110 = .instr (.addI 7) := by decide
theorem test_decode_ldF : decode 0b1111_1000_0010_1001 = .instr (.ldF 8) := by decide
theorem test_decode_ldB : decode 0b1111_1001_0011_0011 = .instr (.ldB 9) := by decide
theorem test_decode_ldStore : decode 0b1111_1010_0101_0101 = .instr (.ldStore 10) := by decide
theorem test_decode_ldLoad : decode 0b1111_1011_0110_0101 = .instr (.ldLoad 11) := by decide

/-- 95_test_vectors.md, "Decode and errors", and the groups of R59. -/
theorem test_decode_illegal_words :
    [0x0000, 0x0123, 0x00E1, 0xB123, 0x5FF1, 0x5121, 0x912F, 0x8008, 0x800F, 0xE000, 0xF000, 0xF075].all
      (fun w : Word => decode w == .unknownOpcode w) = true := by decide

theorem test_decodeTableWord : decodeTableWord 16 0xD125 = some (.drw 1 2 5) := by decide

theorem test_decodeTableWord_refuses : decodeTableWord 16 0xB123 = none := by decide

/-- Lines of the programs P1 and P3 of 95_test_vectors.md, and R62's optional `Vy`. -/
theorem test_assembly :
    assembly (.ldImm 0 5) = "LD V0, 0x05" ∧ assembly (.ldI 0x2F0) = "LD I, 0x2F0" ∧
    assembly (.drw 3 3 5) = "DRW V3, V3, 5" ∧ assembly (.ldLoad 2) = "LD V2, [I]" ∧
    assembly (.shr 4 0) = "SHR V4" := by decide

/-! ### One STEP, from the state LOAD leaves (the conventions of 95_test_vectors.md) -/

/-- The state LOAD leaves, with these registers. -/
def withRegs (regs : List (RegIdx × Byte)) : State :=
  regs.foldl (fun s r => s.setReg r.1 r.2) State.reset

/-- The same, with I and these bytes from I upward. -/
def withData (regs : List (RegIdx × Byte)) (i : Word) (bytes : List Byte) : State :=
  { (withRegs regs).putBytes i.toNat bytes with i := i }

/-- The same, with STEP(key, rnd) as the host's next operation. -/
def withInputs (s : State) (key : BitVec 16) (rnd : Byte) : State :=
  { s with host := { s.host with pending := [.step key rnd] } }

/-- The same, with these pixels lit. -/
def withPixels (s : State) (pixels : List (Nat × Nat)) : State :=
  { s with fb := pixels.foldl (fun fb p => Framebuffer.toggle fb p.1 p.2) s.fb }

/-- What one STEP that runs the word `w` leaves, seen through `f`. -/
def stepWord {α : Type} (w : Nat) (s : State) (f : State → α) : Option α :=
  match step (s.withFetchWord 16 w) with
  | .next t => some (f t)
  | _ => none

/-- VF and the general registers named. -/
def seen (xs : List RegIdx) (t : State) : List Byte := xs.map t.reg

/-- The error record, as "err (c, pc, op, addr)" of 95_test_vectors.md. -/
def err (t : State) : Status × BitVec 3 × Word × Word × Word := t.statusOutput

theorem test_cls : stepWord 0x00E0 (withPixels (withRegs [(15, 7)]) [(0, 0), (10, 10), (63, 31)])
    (fun t => (t.pixel 0 0, t.pixel 10 10, t.pixel 63 31, t.reg 15, t.pc)) =
    some (false, false, false, 7, 0x202) := by decide

theorem test_ret : stepWord 0x00EE
    { State.reset with sp := 1, stack := State.reset.stack.set 0 0x206 }
    (fun t => (t.pc, t.sp, t.stack[0])) = some (0x206, 0, 0x206) := by decide
theorem test_ret_empty : stepWord 0x00EE State.reset err = some (.halted, 3, 0x200, 0x00EE, 0) := by decide

theorem test_jp : stepWord 0x1234 State.reset (·.pc) = some 0x234 := by decide

theorem test_call_deepest : stepWord 0x2ABC { State.reset with sp := 15 }
    (fun t => (t.pc, t.sp, t.stack[15])) = some (0xABC, 16, 0x202) := by decide
theorem test_call_full : stepWord 0x2ABC { State.reset with sp := 16 } err =
    some (.halted, 2, 0x200, 0x2ABC, 0) := by decide

theorem test_seImm_equal : stepWord 0x3A42 (withRegs [(10, 0x42)]) (·.pc) = some 0x204 := by decide
theorem test_seImm_at_end : stepWord 0x3000 { State.reset with pc := 0xFFE } (·.pc) = some 0x1002 := by decide

theorem test_sneImm_equal : stepWord 0x4A42 (withRegs [(10, 0x42)]) (·.pc) = some 0x202 := by decide
theorem test_sneImm_differs : stepWord 0x4A42 State.reset (·.pc) = some 0x204 := by decide

theorem test_seReg_equal : stepWord 0x5120 (withRegs [(1, 7), (2, 7)]) (·.pc) = some 0x204 := by decide
theorem test_seReg_differs : stepWord 0x5120 (withRegs [(1, 7), (2, 8)]) (·.pc) = some 0x202 := by decide

theorem test_sneReg_differs : stepWord 0x9120 (withRegs [(1, 1), (2, 2)]) (·.pc) = some 0x204 := by decide
theorem test_sneReg_equal : stepWord 0x9120 (withRegs [(1, 2), (2, 2)]) (·.pc) = some 0x202 := by decide

theorem test_ldImm : stepWord 0x6A5C State.reset (seen [10, 15]) = some [0x5C, 0] := by decide

theorem test_addImm_no_flag : stepWord 0x7AFF (withRegs [(10, 2), (15, 5)]) (seen [10, 15]) = some [1, 5] := by decide
theorem test_addImm_to_VF : stepWord 0x7F01 (withRegs [(15, 0xFF)]) (seen [15]) = some [0] := by decide

theorem test_ldReg : stepWord 0x8120 (withRegs [(2, 0x55)]) (seen [1, 2]) = some [0x55, 0x55] := by decide
theorem test_orReg : stepWord 0x8121 (withRegs [(1, 0xF0), (2, 0x0F), (15, 7)]) (seen [1, 15]) =
    some [0xFF, 7] := by decide
theorem test_andReg : stepWord 0x8122 (withRegs [(1, 0xF0), (2, 0x3C)]) (seen [1, 2]) = some [0x30, 0x3C] := by decide
theorem test_xorReg : stepWord 0x8123 (withRegs [(1, 0xFF), (2, 0x0F)]) (seen [1, 2]) = some [0xF0, 0x0F] := by decide

theorem test_addReg_no_carry : stepWord 0x8124 (withRegs [(1, 0x80), (2, 0x7F), (15, 7)]) (seen [1, 15]) =
    some [0xFF, 7] := by decide
theorem test_addReg_to_VF : stepWord 0x8F14 (withRegs [(15, 0xFF), (1, 5)]) (seen [15]) = some [4] := by decide

theorem test_sub_borrow : stepWord 0x8015 (withRegs [(0, 3), (1, 5)]) (seen [0, 15]) = some [0xFE, 0] := by decide
theorem test_sub_to_VF : stepWord 0x8F15 (withRegs [(15, 5), (1, 3)]) (seen [15]) = some [0xFE] := by decide

theorem test_shr_ignores_y : stepWord 0x8456 (withRegs [(4, 5), (5, 0xAA)]) (seen [4, 5, 15]) =
    some [2, 0xAA, 1] := by decide
theorem test_shr_of_VF : stepWord 0x8F06 (withRegs [(15, 0xFF)]) (seen [15]) = some [0] := by decide

theorem test_subn : stepWord 0x8017 (withRegs [(0, 3), (1, 10)]) (seen [0, 15]) = some [7, 1] := by decide
theorem test_subn_of_VF : stepWord 0x81F7 (withRegs [(1, 3), (15, 5)]) (seen [1, 15]) = some [0xFE, 1] := by decide

theorem test_shl : stepWord 0x840E (withRegs [(4, 0x81)]) (seen [4, 15]) = some [2, 1] := by decide
theorem test_shl_of_VF : stepWord 0x8FFE (withRegs [(15, 0x80)]) (seen [15]) = some [2] := by decide

theorem test_rnd : stepWord 0xC30F (withInputs State.reset 0 0xA7) (seen [3, 15]) = some [7, 0] := by decide
theorem test_rnd_to_VF : stepWord 0xCFFF (withInputs (withRegs [(15, 1)]) 0 0x3C) (seen [15]) = some [0x3C] := by decide

theorem test_ldI : stepWord 0xA2F0 State.reset (·.i) = some 0x2F0 := by decide

theorem test_addI_wraps : stepWord 0xF51E { withRegs [(5, 1), (15, 9)] with i := 0xFFFF }
    (fun t => (t.i, t.reg 15)) = some (0, 9) := by decide
theorem test_addI_out_of_memory : stepWord 0xF51E { withRegs [(5, 1)] with i := 0x0FFF }
    (fun t => (t.i, t.status)) = some (0x1000, .ready) := by decide

theorem test_ldF_last_glyph : stepWord 0xF129 (withRegs [(1, 0x0F)]) (·.i) = some 0x04B := by decide
theorem test_ldF_out_of_range : stepWord 0xF129 (withRegs [(1, 0x10)]) err =
    some (.halted, 4, 0x200, 0xF129, 0) := by decide

theorem test_ldB_at_end : stepWord 0xF033 (withData [(0, 0xFE)] 0xFFD [])
    (fun t => (t.readByte 0xFFD, t.readByte 0xFFE, t.readByte 0xFFF, t.i)) = some (2, 5, 4, 0xFFD) := by decide
theorem test_ldB_past_end : stepWord 0xF033 (withData [(0, 7)] 0xFFE []) (fun t => (err t, t.readByte 0xFFE)) =
    some ((.halted, 5, 0x200, 0xF033, 0x1000), 0) := by decide

/-- The second part is the last row of "Index and memory": F055 over the first byte of the next word. -/
theorem test_ldStore :
    stepWord 0xF255 (withData [(0, 1), (1, 2), (2, 3), (3, 4)] 0x400 []) (fun t => (t.bytesFrom 0x400 4, t.i)) =
      some ([1, 2, 3, 0], 0x400) ∧
    stepWord 0xF055 (withData [(0, 0x13)] 0x202 [0x6A, 0x42]) (·.fetch) = some (some 0x1342) := by decide
theorem test_ldStore_past_end : stepWord 0xFF55 (withData [(0, 1)] 0xFF1 []) (fun t => (err t, t.readByte 0xFF1)) =
    some ((.halted, 5, 0x200, 0xFF55, 0x1000), 0) := by decide

theorem test_ldLoad : stepWord 0xF265 (withData [(3, 9)] 0x300 [2, 5, 4, 8]) (seen [0, 1, 2, 3]) =
    some [2, 5, 4, 9] := by decide
theorem test_ldLoad_no_wrap : stepWord 0xF065 (withData [] 0xFFFF []) err =
    some (.halted, 5, 0x200, 0xF065, 0xFFFF) := by decide

theorem test_drw_clips : stepWord 0xD011 (withData [(0, 60)] 0x300 [0xFF])
    (fun t => (t.pixel 59 0, t.pixel 60 0, t.pixel 63 0, t.pixel 0 0, t.pixel 3 0, t.reg 15)) =
    some (false, true, true, false, false, 0) := by decide
theorem test_drw_collides_in_VF : stepWord 0xDF11 (withPixels (withData [(15, 2), (1, 3)] 0x300 [0x80]) [(2, 3)])
    (fun t => (t.pixel 2 3, t.reg 15)) = some (false, 1) := by decide

theorem test_skp_pressed : stepWord 0xE29E (withInputs { withRegs [(2, 7)] with pc := 0x210 } 0x0080 0) (·.pc) =
    some 0x214 := by decide
theorem test_skp_no_such_key : stepWord 0xE29E (withRegs [(2, 0x10)]) err =
    some (.halted, 6, 0x200, 0xE29E, 0) := by decide

theorem test_sknp_released : stepWord 0xE2A1 (withInputs { withRegs [(2, 7)] with pc := 0x210 } 0 0) (·.pc) =
    some 0x214 := by decide
theorem test_sknp_no_such_key : stepWord 0xE2A1 (withRegs [(2, 0xFF)]) err =
    some (.halted, 6, 0x200, 0xE2A1, 0) := by decide

theorem test_ldVxDt_before_tick : stepWord 0xF307 { State.reset with dt := 0x3C, div := 1 }
    (fun t => (t.reg 3, t.dt, t.div)) = some (0x3C, 0x3B, 9) := by decide

theorem test_ldVxK_lowest : stepWord 0xF40A (withInputs { State.reset with pc := 0x220 } 0x0420 0)
    (fun t => (t.reg 4, t.pc)) = some (5, 0x222) := by decide
theorem test_ldVxK_waits : stepWord 0xF40A (withInputs { State.reset with pc := 0x220 } 0 0)
    (fun t => (t.reg 4, t.pc, t.div)) = some (0, 0x220, 8) := by decide

theorem test_ldDtVx_tick : stepWord 0xF015 { withRegs [(0, 3)] with div := 1 } (fun t => (t.dt, t.div)) =
    some (2, 9) := by decide
theorem test_ldDtVx_zero_tick : stepWord 0xF015 { State.reset with div := 1 } (fun t => (t.dt, t.div)) =
    some (0, 9) := by decide

theorem test_ldStVx : stepWord 0xF118 (withRegs [(1, 0x0A)]) (·.soundOutput) = some 0x0A := by decide
theorem test_ldStVx_tick : stepWord 0xF118 { withRegs [(1, 0x0A)] with div := 1 } (·.soundOutput) =
    some 0x09 := by decide

/-- 95_test_vectors.md, "Divider": an error skips the advance. -/
theorem test_error_skips_divider : stepWord 0x0000 { State.reset with div := 1, dt := 5 }
    (fun t => (err t, t.div, t.dt)) = some ((.halted, 1, 0x200, 0x0000, 0), 1, 5) := by decide

/-- 95_test_vectors.md, "Decode and errors": a fetch at 0xFFF. -/
theorem test_fetch_past_end : (match step { State.reset with pc := 0xFFF } with
    | .next t => some (err t) | _ => none) = some (.halted, 5, 0xFFF, 0, 0x1000) := by decide

/-- W1 of 95_test_vectors.md, from UNLOADED. -/
theorem test_load : (match step { State.reset with status := .unloaded, host := { HostPort.initial with
      pending := [.load [0x12, 0x00]] } } with
    | .next t => some (t.bytesFrom 0x1FE 6, t.readByte 0x004, t.pc, t.status) | _ => none) =
    some ([0, 0, 0x12, 0, 0, 0], 0xF0, 0x200, .ready) := by decide

/-! ### Witnesses: what meets the hypotheses of each statement that has some -/

/-- A READY core about to run `word` at `pc`, with a STEP queued. -/
def about (word : Nat) (pc : Word) : State :=
  (withInputs { State.reset with pc := pc } 0 0).withFetchWord 16 word

/-- A core in this STATUS with nothing queued. -/
def inStatus (st : Status) : State := { State.reset with status := st }

/-- A core in this STATUS with a LOAD of `image` as the host's next operation, under this policy. -/
def loading (st : Status) (p : OversizePolicy) (image : List Byte) : State :=
  { inStatus st with
    config := { Config.standard with oversizePolicy := p }
    host := { HostPort.initial with pending := [.load image] } }

theorem witness_EncodeOfDecodeIsWord : decode 0x84AE = .instr (.shl 4 10) := by decide

theorem witness_StepRunsDecodedInstruction :
    let s := about 0x6A42 0xFFE
    s.status = .ready ∧ s.pendingLoad = none ∧ s.pc.toNat + 1 < 4096 ∧ s.pc.toNat + 1 = 4095 ∧
    decode (wordOfBytes (s.readByte s.pc.toNat) (s.readByte (s.pc.toNat + 1))) = .instr (.ldImm 10 0x42) ∧
    ∃ t, exec (.ldImm 10 0x42) s.takeInputs = .next t :=
  ⟨by decide, by decide, by decide, by decide, by decide, _, rfl⟩

theorem witness_StepLatchesHostInputs :
    (withInputs State.reset 0x8001 0xFF).host.pending = [.step 0x8001 0xFF] ∧ State.reset.host.pending = [] := by
  decide

theorem witness_RetireAdvancesDivider :
    (({ State.reset with div := 1 } : State).status ≠ .halted ∧ 1 ≤ ({ State.reset with div := 1 } : State).div) ∧
    (({ State.reset with div := 2 } : State).status ≠ .halted ∧ 1 ≤ ({ State.reset with div := 2 } : State).div ∧
      ({ State.reset with div := 2 } : State).div ≠ 1) := by decide

theorem witness_FetchIsBigEndianOrRaises_last_word :
    ({ State.reset with pc := 0xFFE } : State).pc.toNat + 1 < 4096 := by decide

theorem witness_FetchIsBigEndianOrRaises_past_end :
    let s : State := { State.reset with pc := 0xFFF }
    4096 ≤ s.pc.toNat + 1 ∧ s.status = .ready ∧ s.pendingLoad = none := by decide

theorem witness_UnknownOpcodeRaises :
    State.reset.status = .ready ∧ State.reset.pendingLoad = none ∧ State.reset.fetch = some 0x0000 ∧
    decode 0x0000 = .unknownOpcode 0x0000 := by decide

theorem witness_RaisingStepChangesOnlyRecord :
    let s := about 0x00EE 0x200
    s.status = .ready ∧ s.pendingLoad = none ∧ ∃ t, step s = .next t ∧ t.status = .halted :=
  ⟨by decide, by decide, _, rfl, by decide⟩

theorem witness_UnloadedStepIsRefused :
    (inStatus .unloaded).status = .unloaded ∧ (inStatus .unloaded).pendingLoad = none := by decide

theorem witness_HaltedStepChangesNothing :
    (inStatus .halted).status = .halted ∧ (inStatus .halted).pendingLoad = none := by decide

theorem noLoadPending_of_nil {s : State} (h : s.host.pending = []) : NoLoadPending s := by
  intro image
  rw [h]
  exact List.not_mem_nil

theorem witness_HaltedIsAbsorbing : (inStatus .halted).status = .halted ∧ NoLoadPending (inStatus .halted) :=
  ⟨rfl, noLoadPending_of_nil rfl⟩

theorem witness_LoadLeavesResetValues_largest :
    (loading .unloaded .reject largestImage).pendingLoad = some largestImage ∧ largestImage.length ≤ 3584 :=
  ⟨rfl, Nat.le_of_eq length_largestImage⟩

theorem witness_LoadLeavesResetValues_empty :
    (loading .halted .truncate []).pendingLoad = some [] ∧ ([] : List Byte).length ≤ 3584 := by decide

theorem witness_OversizeLoadFollowsPolicy_reject :
    (loading .ready .reject oversizeImage).pendingLoad = some oversizeImage ∧ 3584 < oversizeImage.length ∧
    (loading .ready .reject oversizeImage).config.oversizePolicy = .reject :=
  ⟨rfl, by rw [length_oversizeImage]; decide, rfl⟩

theorem witness_OversizeLoadFollowsPolicy_truncate :
    (loading .ready .truncate oversizeImage).pendingLoad = some oversizeImage ∧ 3584 < oversizeImage.length ∧
    (loading .ready .truncate oversizeImage).config.oversizePolicy = .truncate :=
  ⟨rfl, by rw [length_oversizeImage]; decide, rfl⟩

theorem witness_ResetIsEmptyLoad : (inStatus .unloaded).config = Config.standard := rfl

/-- A READY state other than reset that meets the invariant and steps. -/
theorem witness_StepKeepsInvariant : (about 0x2ABC 0xFFE).Inv ∧ ∃ t, step (about 0x2ABC 0xFFE) = .next t :=
  ⟨⟨by decide, fun _ => ⟨by decide, ⟨by decide, by decide⟩, ⟨by decide, by decide⟩,
    ⟨fun _ => ⟨rfl, rfl, rfl, rfl⟩, fun h => nomatch h⟩⟩⟩, _, rfl⟩

theorem witness_InstructionsWriteOnlyTheirParts :
    (withRegs [(0, 1)]).status = .ready ∧
    ∃ t, exec (.ldStore 0) (withData [(0, 1)] 0xFFF []) = .next t ∧ t.status = .ready :=
  ⟨by decide, _, rfl, by decide⟩

theorem witness_OtherInstructionsNeverRaise :
    (Instr.addReg 15 15).mnemonic ∉ ["CALL", "RET", "LD_F", "DRW", "LD_B", "LD_store", "LD_load", "SKP", "SKNP"] := by
  decide

theorem witness_OnlyKeyInstructionsReadKeypad :
    (Instr.rnd 3 0x0F).mnemonic ∉ ["SKP", "SKNP", "LD_Vx_K"] ∧ ∃ t, exec (.rnd 3 0x0F) State.reset = .next t :=
  ⟨by decide, _, rfl⟩

theorem witness_OnlyRndReadsRandomByte :
    (Instr.skp 0).mnemonic ≠ "RND" ∧ ∃ t, exec (.skp 0) State.reset = .next t :=
  ⟨by decide, _, rfl⟩

/-- Each error of R105 at the first value of its cause, and each instruction that can raise at the last value before. -/
theorem witness_EveryInstructionAnswersNextState :
    (errorOf { State.reset with sp := 16 } (.call 0) = some (2, 0) ∧
      errorOf { State.reset with sp := 15 } (.call 0) = none) ∧
    (errorOf State.reset .ret = some (3, 0) ∧ errorOf { State.reset with sp := 1 } .ret = none) ∧
    (errorOf (withRegs [(1, 0x10)]) (.ldF 1) = some (4, 0) ∧ errorOf (withRegs [(1, 0x0F)]) (.ldF 1) = none) ∧
    (errorOf (withData [] 0xFFE []) (.drw 0 0 3) = some (5, 0x1000) ∧
      errorOf (withData [] 0xFFE []) (.drw 0 0 2) = none ∧ errorOf (withData [] 0xFFFF []) (.drw 0 0 0) = none) ∧
    (errorOf (withData [] 0xFFE []) (.ldB 0) = some (5, 0x1000) ∧ errorOf (withData [] 0xFFD []) (.ldB 0) = none) ∧
    (errorOf (withData [] 0xFFFF []) (.ldStore 0) = some (5, 0xFFFF) ∧
      errorOf (withData [] 0xFF0 []) (.ldStore 15) = none) ∧
    (errorOf (withData [] 0xFF1 []) (.ldLoad 15) = some (5, 0x1000) ∧
      errorOf (withData [] 0xFFF []) (.ldLoad 0) = none) ∧
    (errorOf (withRegs [(2, 0x10)]) (.skp 2) = some (6, 0) ∧ errorOf (withRegs [(2, 0x0F)]) (.skp 2) = none) ∧
    (errorOf (withRegs [(2, 0xFF)]) (.sknp 2) = some (6, 0) ∧ errorOf (withRegs [(2, 0)]) (.sknp 2) = none) ∧
    errorOf { State.reset with sp := 16, i := 0xFFFF } (.jp 0xFFF) = none := by decide

/-- 1200, the jump to itself, with the divider one above a tick and at one. -/
theorem witness_SuccessfulStepCountsDividerDown :
    [1, 2].all (fun d =>
      let s := { about 0x1200 0x200 with div := d }
      s.status == .ready && s.pendingLoad == none &&
        (match step s with | .next t => t.status == .ready | _ => false)) = true := by decide

/-- 1200, the jump to itself, over a whole period of the divider. -/
theorem witness_DividerTicksEveryCyclesPerTick :
    let s := { about 0x1200 0x200 with host := HostPort.initial }
    1 ≤ s.config.cyclesPerTick ∧ s.div = s.config.cyclesPerTick ∧ NoLoadPending s ∧
    ∃ t, Sys2Proof.core.run 9 s = .next t ∧ t.status = .ready :=
  ⟨by decide, by decide, noLoadPending_of_nil rfl, _, rfl, by decide⟩

theorem witness_RetPopsReturnAddressOrRaises :
    (0 < ({ State.reset with sp := 1 } : State).sp.val ∧ 0 < ({ State.reset with sp := 16 } : State).sp.val) ∧
    State.reset.sp.val = 0 := by decide

theorem witness_CallPushesReturnAddressOrRaises :
    ({ State.reset with sp := 15 } : State).sp.val < 16 ∧ ({ State.reset with sp := 16 } : State).sp.val = 16 := by
  decide

theorem witness_CallThenRetReturns :
    let s : State := { State.reset with sp := 15 }
    s.sp.val < 16 ∧ ∃ t, exec (.call 0xFFF) s = .next t :=
  ⟨by decide, _, rfl⟩

/-- The clauses of 8xy4, 8xy5, 8xy6, 8xy7 and 8xyE on x and y: neither is F, y is F, x is F, both are. -/
theorem witness_flag_instructions_operands :
    ((14 : RegIdx) ≠ VF ∧ (0 : RegIdx) ≠ VF) ∧ ((14 : RegIdx) ≠ VF ∧ (15 : RegIdx) = VF) ∧
    ((15 : RegIdx) = VF ∧ (14 : RegIdx) ≠ VF) ∧ (15 : RegIdx) = VF := by decide

theorem witness_FontPointerOrInvalidIndex :
    ((withRegs [(1, 0x0F)]).reg 1).toNat ≤ 0xF ∧ 0xF < ((withRegs [(1, 0x10)]).reg 1).toNat := by decide

theorem witness_BcdStoresDigitsOrRaises :
    (withData [] 0xFFD []).i.toNat + 2 < 4096 ∧ 4096 ≤ (withData [] 0xFFE []).i.toNat + 2 := by decide

/-- The bounds of Fx55 and Fx65, for one register and for all sixteen. -/
theorem witness_StoreWritesRegistersOrRaises_and_LoadReadsRegistersOrRaises :
    ((withData [] 0xFFF []).i.toNat + (0 : RegIdx).val < 4096 ∧
      4096 ≤ (withData [] 0x1000 []).i.toNat + (0 : RegIdx).val) ∧
    ((withData [] 0xFF0 []).i.toNat + (15 : RegIdx).val < 4096 ∧
      4096 ≤ (withData [] 0xFF1 []).i.toNat + (15 : RegIdx).val) := by decide

theorem witness_StoreThenLoadRestoresRegisters :
    let s := withData [(0, 1), (1, 2)] 0xFFE []
    s.i.toNat + (1 : RegIdx).val < 4096 ∧
    ∃ t u, exec (.ldStore 1) s = .next t ∧ exec (.ldLoad 1) t = .next u :=
  ⟨by decide, _, _, rfl, rfl⟩

/-- Fx55 or Fx33 at `pc` about to store from `i` upward: a READY core with a full divider. -/
def storing (word : Nat) (pc i : Word) : State := { about word pc with i := i }

/-- The last place with a word after it in MEM, and I so that the store falls on both bytes of that word, on its first
alone, on its second alone, and on neither. -/
theorem witness_StoreOverNextInstructionIsFetched_store :
    let both := storing 0xF155 0xFFC 0xFFE
    let first := storing 0xF055 0xFFC 0xFFE
    let second := storing 0xF055 0xFFC 0xFFF
    let neither := storing 0xF055 0x200 0xFFF
    (both.status = .ready ∧ both.pendingLoad = none ∧ 1 ≤ both.div ∧ both.pc.toNat + 3 < 4096 ∧
      decode (wordOfBytes (both.readByte 0xFFC) (both.readByte 0xFFD)) = .instr (.ldStore 1) ∧
      both.i.toNat + (1 : RegIdx).val < 4096) ∧
    [first, second].all (fun s => decode (wordOfBytes (s.readByte 0xFFC) (s.readByte 0xFFD)) == .instr (.ldStore 0) &&
      decide (s.i.toNat + (0 : RegIdx).val < 4096)) = true ∧
    decode (wordOfBytes (neither.readByte 0x200) (neither.readByte 0x201)) = .instr (.ldStore 0) ∧
    neither.i.toNat + (0 : RegIdx).val < 4096 := by decide

theorem witness_StoreOverNextInstructionIsFetched_bcd :
    let s := storing 0xF033 0xFFB 0xFFD
    s.status = .ready ∧ s.pendingLoad = none ∧ 1 ≤ s.div ∧ s.pc.toNat + 3 < 4096 ∧
    decode (wordOfBytes (s.readByte s.pc.toNat) (s.readByte (s.pc.toNat + 1))) = .instr (.ldB 0) ∧
    s.i.toNat + 2 < 4096 := by decide

/-- The bounds of Dxyn: no row, the last byte of MEM, and one byte past it. -/
theorem witness_DrwXorsSpriteAndFlagsCollision :
    (0 : Nibble) = 0 ∧ (withData [] 0xFFE []).i.toNat + (2 : Nibble).toNat - 1 < 4096 ∧
    (3 : Nibble) ≠ 0 ∧ 4096 ≤ (withData [] 0xFFE []).i.toNat + (3 : Nibble).toNat - 1 := by decide

theorem witness_DrwTwiceRestoresFramebuffer :
    let s := withData [(0, 60), (1, 30)] 0x300 [0xFF, 0x81, 0xFF]
    (0 : RegIdx) ≠ VF ∧ (1 : RegIdx) ≠ VF ∧ s.status = .ready ∧
    ∃ t u, exec (.drw 0 1 3) s = .next t ∧ t.status = .ready ∧ exec (.drw 0 1 3) t = .next u :=
  ⟨by decide, by decide, by decide, _, _, rfl, by decide, rfl⟩

theorem witness_KeySkipsTestSnapshotOrRaise :
    ((withRegs [(2, 0x0F)]).reg 2).toNat ≤ 0xF ∧ 0xF < ((withRegs [(2, 0x10)]).reg 2).toNat := by decide

/-- A snapshot with keys pressed, as a STEP latches it. -/
def withKeys (key : BitVec 16) : State := { State.reset with host := { HostPort.initial with key := key } }

theorem witness_KeyWaitTakesLowestKey :
    ((withKeys 0x8000).host.key.getLsbD 15 = true ∧ ∀ j < 15, (withKeys 0x8000).host.key.getLsbD j = false) ∧
    ((withKeys 0xFFFF).host.key.getLsbD 0 = true ∧ ∀ j < 0, (withKeys 0xFFFF).host.key.getLsbD j = false) := by decide

theorem witness_KeyWaitHoldsPcWithoutKey : ∀ k < 16, (withKeys 0).host.key.getLsbD k = false := by decide

end Sys2Proof.Tests
end

section
/-! PROOFS. Control transfer and skips (40_flow.md): the jump and the four register skips, O27 and O30. -/

namespace Sys2Proof.Machine

variable (s : State)

/-! ### The instruction's own effect -/

theorem exec_jp (nnn : Addr) : exec (.jp nnn) s = .next (s.jump (zext16 nnn)) := rfl

theorem exec_seImm (x : RegIdx) (nn : Byte) : exec (.seImm x nn) s = .next (s.skipIf (s.reg x == nn)) := rfl

theorem exec_sneImm (x : RegIdx) (nn : Byte) : exec (.sneImm x nn) s = .next (s.skipIf (s.reg x != nn)) := rfl

theorem exec_seReg (x y : RegIdx) : exec (.seReg x y) s = .next (s.skipIf (s.reg x == s.reg y)) := rfl

theorem exec_sneReg (x y : RegIdx) : exec (.sneReg x y) s = .next (s.skipIf (s.reg x != s.reg y)) := rfl

/-! ### The two updates of PC -/

@[simp] theorem toNat_zext16 (nnn : Addr) : (zext16 nnn).toNat = nnn.toNat :=
  BitVec.toNat_setWidth_of_le (by decide)

theorem changesOnly_jump (w : Word) : ChangesOnly s (s.jump w) [] := changesOnly_pc s w

theorem changesOnly_skipIf (c : Bool) : ChangesOnly s (s.skipIf c) [] := changesOnly_pc s _

/-- The two additions of R64 as one. -/
theorem State.skipIf_pc_eq_add (c : Bool) : (s.skipIf c).pc = s.pc + (if c then 4 else 2) := by
  cases c
  · rfl
  · exact BitVec.add_assoc s.pc 2 2

/-- The shape the skips share: an instruction that answers `skipIf` advances PC by 4 or 2 and changes nothing else. -/
theorem skips_of_exec_eq {i : Instr} {s : State} {c : Bool} (h : exec i s = .next (s.skipIf c)) :
    ∃ t, exec i s = .next t ∧ t.pc = s.pc + (if c then 4 else 2) ∧ ChangesOnly s t [] :=
  ⟨s.skipIf c, h, s.skipIf_pc_eq_add c, changesOnly_skipIf s c⟩

end Sys2Proof.Machine

open Sys2Proof.Machine

/-- Settles O27: a jump writes PC only, and widening nnn to 16 bits keeps its value. -/
theorem jpSetsPc : Obligations.JpSetsPc := fun nnn s =>
  ⟨s.jump (zext16 nnn), exec_jp s nnn, toNat_zext16 nnn, changesOnly_jump s (zext16 nnn)⟩

/-- Settles O30: each of the four answers `skipIf` of its condition, that of SNE being the negated one. -/
theorem registerSkipsAdvancePc : Obligations.RegisterSkipsAdvancePc := by
  intro x y nn s
  refine ⟨?seImm, ?sneImm, ?seReg, ?sneReg⟩
  case seImm => simpa only [beq_iff_eq] using skips_of_exec_eq (exec_seImm s x nn)
  case sneImm => simpa only [bne_iff_ne, ite_not] using skips_of_exec_eq (exec_sneImm s x nn)
  case seReg => simpa only [beq_iff_eq] using skips_of_exec_eq (exec_seReg s x y)
  case sneReg => simpa only [bne_iff_ne, ite_not] using skips_of_exec_eq (exec_sneReg s x y)

end

section
/-! PROOFS. Register and arithmetic instructions without a flag (41_alu.md): O31, O32 and O33. -/

namespace Sys2Proof.Machine

variable (s : State)

/-! ### The instruction's own effect -/

theorem exec_ldImm (x : RegIdx) (nn : Byte) : exec (.ldImm x nn) s = .next (s.setReg x nn).advance := rfl

theorem exec_addImm (x : RegIdx) (nn : Byte) :
    exec (.addImm x nn) s = .next (s.setReg x (trunc8 ((s.reg x).toNat + nn.toNat))).advance := rfl

theorem exec_ldReg (x y : RegIdx) : exec (.ldReg x y) s = .next (s.setReg x (s.reg y)).advance := rfl

theorem exec_orReg (x y : RegIdx) : exec (.orReg x y) s = .next (s.setReg x (s.reg x ||| s.reg y)).advance := rfl

theorem exec_andReg (x y : RegIdx) : exec (.andReg x y) s = .next (s.setReg x (s.reg x &&& s.reg y)).advance := rfl

theorem exec_xorReg (x y : RegIdx) : exec (.xorReg x y) s = .next (s.setReg x (s.reg x ^^^ s.reg y)).advance := rfl

/-! ### A write of one register -/

theorem toNat_trunc8 (n : Nat) : (trunc8 n).toNat = n % 256 := BitVec.toNat_ofNat n 8

theorem changesOnly_setReg_advance (x : RegIdx) (b : Byte) : ChangesOnly s (s.setReg x b).advance [.reg x] :=
  changesOnly_setReg s x b _

/-- The shape the instructions of this part share: the value goes to V[x], PC advances, and nothing else changes, so
that VF is kept unless x = F. -/
theorem writesReg_of_exec_eq {i : Instr} {s : State} {x : RegIdx} {b : Byte}
    (h : exec i s = .next (s.setReg x b).advance) :
    ∃ t, exec i s = .next t ∧ t.reg x = b ∧ t.pc = s.pc + 2 ∧ ChangesOnly s t [.reg x] :=
  ⟨(s.setReg x b).advance, h, s.reg_setReg_same x b, rfl, changesOnly_setReg_advance s x b⟩

end Sys2Proof.Machine

open Sys2Proof.Machine

/-- Settles O31: both loads are one register write, of the immediate and of V[y]. -/
theorem registerLoadsCopy : Obligations.RegisterLoadsCopy := fun x y nn s =>
  ⟨writesReg_of_exec_eq (exec_ldImm s x nn), writesReg_of_exec_eq (exec_ldReg s x y)⟩

/-- Settles O32: one register write, of the sum truncated to a byte, which is its residue modulo 256. -/
theorem addImmWrapsWithoutFlag : Obligations.AddImmWrapsWithoutFlag := by
  intro x nn s
  obtain ⟨t, hexec, hreg, hframe⟩ := writesReg_of_exec_eq (exec_addImm s x nn)
  have hsum : (t.reg x).toNat = ((s.reg x).toNat + nn.toNat) % 256 := by rw [hreg, toNat_trunc8]
  exact ⟨t, hexec, hsum, hframe⟩

/-- Settles O33: each is one register write, of the two registers' values before it combined bit by bit. -/
theorem bitwiseOpsCombineRegisters : Obligations.BitwiseOpsCombineRegisters := fun x y s =>
  ⟨writesReg_of_exec_eq (exec_orReg s x y), writesReg_of_exec_eq (exec_andReg s x y),
    writesReg_of_exec_eq (exec_xorReg s x y)⟩

end

section
/-! PROOFS. The index register (42_index_memory.md): the two instructions that write I alone, O40. -/

namespace Sys2Proof.Machine

variable (s : State)

/-! ### The instruction's own effect -/

theorem exec_ldI (nnn : Addr) : exec (.ldI nnn) s = .next ({ s with i := zext16 nnn }).advance := rfl

theorem exec_addI (x : RegIdx) :
    exec (.addI x) s = .next ({ s with i := trunc16 (s.i.toNat + (s.reg x).toNat) }).advance := rfl

/-! ### A write of I -/

theorem toNat_trunc16 (n : Nat) : (trunc16 n).toNat = n % 65536 := BitVec.toNat_ofNat n 16

theorem changesOnly_index_advance (w : Word) : ChangesOnly s ({ s with i := w }).advance [.index] :=
  changesOnly_index s w _

/-- The shape the instructions of this part share: the word goes to I, PC advances, and nothing else changes, so that VF
and the error record are kept for every word. -/
theorem writesIndex_of_exec_eq {i : Instr} {s : State} {w : Word} (h : exec i s = .next ({ s with i := w }).advance) :
    ∃ t, exec i s = .next t ∧ t.i = w ∧ t.pc = s.pc + 2 ∧ ChangesOnly s t [.index] :=
  ⟨({ s with i := w }).advance, h, State.advance_i _, State.advance_pc _, changesOnly_index_advance s w⟩

end Sys2Proof.Machine

open Sys2Proof.Machine

/-- Settles O40: each is one write of I, of nnn widened to 16 bits, which keeps its value, and of the sum truncated to
16 bits, which is its residue modulo 65536. -/
theorem indexLoadsAndAdds : Obligations.IndexLoadsAndAdds := by
  intro nnn x s
  constructor
  · obtain ⟨t, hexec, hindex, hframe⟩ := writesIndex_of_exec_eq (exec_ldI s nnn)
    have hvalue : t.i.toNat = nnn.toNat := by rw [hindex, toNat_zext16]
    exact ⟨t, hexec, hvalue, hframe⟩
  · obtain ⟨t, hexec, hindex, hframe⟩ := writesIndex_of_exec_eq (exec_addI s x)
    have hsum : t.i.toNat = (s.i.toNat + (s.reg x).toNat) % 65536 := by rw [hindex, toNat_trunc16]
    exact ⟨t, hexec, hsum, hframe⟩

end

section
/-! PROOFS. Clearing the display (43_display.md section 2, CLS): O47. -/

namespace Sys2Proof.Machine

variable (s : State)

/-! ### The instruction's own effect -/

theorem exec_cls : exec .cls s = .next ({ s with fb := Vector.replicate 32 0 }).advance := rfl

/-! ### A write of the framebuffer -/

/-- No pixel of the blank framebuffer is lit, on the grid or off it (R29). -/
theorem Framebuffer.pixel_blank (c r : Nat) : Framebuffer.pixel (Vector.replicate 32 0) c r = false := by
  unfold Framebuffer.pixel
  split
  case isTrue onGrid =>
    have hrow : (Vector.replicate 32 (0 : BitVec 64))[r] = 0 := Vector.getElem_replicate onGrid
    rw [hrow]
    exact BitVec.getMsbD_zero
  case isFalse => rfl

/-- Writing the framebuffer keeps every register, VF included, beside PC. -/
theorem changesOnly_fb_advance (fb : Framebuffer) : ChangesOnly s ({ s with fb := fb }).advance [.display] := by
  have display_written : Part.display ∈ [Part.display] := List.mem_singleton_self _
  exact ⟨fun _ _ _ => rfl, fun _ => rfl, fun _ => ⟨rfl, rfl⟩, fun _ => rfl, fun _ => rfl,
    fun not_written => absurd display_written not_written, fun _ _ => rfl,
    rfl, rfl, rfl, rfl, rfl, rfl, rfl, rfl⟩

end Sys2Proof.Machine

open Sys2Proof.Machine

/-- Settles O47: 00E0 is one write of the framebuffer, of the blank one. -/
theorem clsClearsEveryPixel : Obligations.ClsClearsEveryPixel := by
  intro s
  refine ⟨({ s with fb := Vector.replicate 32 0 }).advance, exec_cls s, ?_, State.advance_pc _,
    changesOnly_fb_advance s _⟩
  intro c r
  rw [State.pixel, State.advance_fb]
  exact Framebuffer.pixel_blank c r

end

section
/-! PROOFS. The timer moves (44_keypad_timers.md section 2, LD Vx, DT, LD DT, Vx and LD ST, Vx): O51. -/

namespace Sys2Proof.Machine

variable (s : State)

/-! ### The instruction's own effect -/

theorem exec_ldVxDt (x : RegIdx) : exec (.ldVxDt x) s = .next (s.setReg x s.dt).advance := rfl

theorem exec_ldDtVx (x : RegIdx) : exec (.ldDtVx x) s = .next ({ s with dt := s.reg x }).advance := rfl

theorem exec_ldStVx (x : RegIdx) : exec (.ldStVx x) s = .next ({ s with st := s.reg x }).advance := rfl

/-! ### A write of one timer -/

/-- Writing DT keeps ST and the divider, beside PC. -/
theorem changesOnly_delay_advance (b : Byte) : ChangesOnly s ({ s with dt := b }).advance [.delay] := by
  have delay_written : Part.delay ∈ [Part.delay] := List.mem_singleton_self _
  exact ⟨fun _ _ _ => rfl, fun _ => rfl, fun _ => ⟨rfl, rfl⟩,
    fun not_written => absurd delay_written not_written, fun _ => rfl, fun _ => rfl, fun _ _ => rfl,
    rfl, rfl, rfl, rfl, rfl, rfl, rfl, rfl⟩

/-- Writing ST keeps DT and the divider, beside PC. -/
theorem changesOnly_sound_advance (b : Byte) : ChangesOnly s ({ s with st := b }).advance [.sound] := by
  have sound_written : Part.sound ∈ [Part.sound] := List.mem_singleton_self _
  exact ⟨fun _ _ _ => rfl, fun _ => rfl, fun _ => ⟨rfl, rfl⟩, fun _ => rfl,
    fun not_written => absurd sound_written not_written, fun _ => rfl, fun _ _ => rfl,
    rfl, rfl, rfl, rfl, rfl, rfl, rfl, rfl⟩

end Sys2Proof.Machine

open Sys2Proof.Machine

/-- Settles O51: Fx07 is one register write, of DT; Fx15 and Fx18 are each one write of a timer, of V[x]. -/
theorem timerMovesCopy : Obligations.TimerMovesCopy := by
  intro x s
  refine ⟨?ldVxDt, ?ldDtVx, ?ldStVx⟩
  case ldVxDt => exact writesReg_of_exec_eq (exec_ldVxDt s x)
  case ldDtVx =>
    exact ⟨({ s with dt := s.reg x }).advance, exec_ldDtVx s x, State.advance_dt _, State.advance_pc _,
      changesOnly_delay_advance s _⟩
  case ldStVx =>
    exact ⟨({ s with st := s.reg x }).advance, exec_ldStVx s x, State.advance_st _, State.advance_pc _,
      changesOnly_sound_advance s _⟩

end

section
/-! PROOFS. Encoding and decoding (30_encoding.md): O1 to O5. -/

namespace Sys2Proof

/-! ### A word written in the form of its row -/

section
variable {w : Word} {o n : Nibble} {nn : Byte}

theorem formAddr_of_fieldO (ho : fieldO w = o) : formAddr o (fieldNnn w) = w := by
  rw [← ho, formAddr_fields]

theorem formByte_of_fieldO (ho : fieldO w = o) : formByte o (fieldX w) (fieldNn w) = w := by
  rw [← ho, formByte_fields]

theorem formByte_of_fields (ho : fieldO w = o) (hn : fieldNn w = nn) : formByte o (fieldX w) nn = w := by
  rw [← hn, formByte_of_fieldO ho]

theorem formNibble_of_fieldO (ho : fieldO w = o) : formNibble o (fieldX w) (fieldY w) (fieldN w) = w := by
  rw [← ho, formNibble_fields]

theorem formNibble_of_fields (ho : fieldO w = o) (hn : fieldN w = n) :
    formNibble o (fieldX w) (fieldY w) n = w := by
  rw [← hn, formNibble_of_fieldO ho]

end

/-! ### What the decoder can answer -/

/-- A word is decoded to an instruction it is the word of, or is rejected as it is. -/
def DecodesTo (w : Word) (d : Decoded) : Prop :=
  (∃ i, d = .instr i ∧ encode i = w) ∨ d = .unknownOpcode w

theorem DecodesTo.instr {w : Word} {i : Instr} (h : encode i = w) : DecodesTo w (.instr i) := .inl ⟨i, rfl, h⟩

theorem DecodesTo.unknown (w : Word) : DecodesTo w (.unknownOpcode w) := .inr rfl

theorem decodeGroup8_decodesTo {w : Word} (ho : fieldO w = 0x8) : DecodesTo w (decodeGroup8 w) := by
  unfold decodeGroup8
  split
  case h_10 => exact .unknown w
  all_goals next hn => exact .instr (formNibble_of_fields ho hn)

theorem decodeGroupF_decodesTo {w : Word} (ho : fieldO w = 0xF) : DecodesTo w (decodeGroupF w) := by
  unfold decodeGroupF
  split
  case h_10 => exact .unknown w
  all_goals next hn => exact .instr (formByte_of_fields ho hn)

theorem decode_decodesTo (w : Word) : DecodesTo w (decode w) := by
  unfold decode
  split
  case h_1 =>
    split_ifs with hcls hret
    · exact .instr hcls.symm
    · exact .instr hret.symm
    · exact .unknown w
  case h_2 ho => exact .instr (formAddr_of_fieldO ho)
  case h_3 ho => exact .instr (formAddr_of_fieldO ho)
  case h_4 ho => exact .instr (formByte_of_fieldO ho)
  case h_5 ho => exact .instr (formByte_of_fieldO ho)
  case h_6 ho =>
    split_ifs with hn
    · exact .instr (formNibble_of_fields ho hn)
    · exact .unknown w
  case h_7 ho => exact .instr (formByte_of_fieldO ho)
  case h_8 ho => exact .instr (formByte_of_fieldO ho)
  case h_9 ho => exact decodeGroup8_decodesTo ho
  case h_10 ho =>
    split_ifs with hn
    · exact .instr (formNibble_of_fields ho hn)
    · exact .unknown w
  case h_11 ho => exact .instr (formAddr_of_fieldO ho)
  case h_12 ho => exact .instr (formByte_of_fieldO ho)
  case h_13 ho => exact .instr (formNibble_of_fieldO ho)
  case h_14 ho =>
    split_ifs with hskp hsknp
    · exact .instr (formByte_of_fields ho hskp)
    · exact .instr (formByte_of_fields ho hsknp)
    · exact .unknown w
  case h_15 ho => exact decodeGroupF_decodesTo ho
  case h_16 => exact .unknown w

theorem encode_of_decode {w : Word} {i : Instr} (h : decode w = .instr i) : encode i = w := by
  rcases decode_decodesTo w with ⟨j, hj, he⟩ | hu
  · obtain rfl : j = i := Decoded.instr.inj (hj.symm.trans h)
    exact he
  · cases hu.symm.trans h

/-! ### Decoding the word of an instruction -/

/-- The major opcode picks the group, and the minor opcode, where there is one, the instruction in it; both are read
back by the field laws of the form the word is written in. -/
theorem decode_encode (i : Instr) : decode (encode i) = .instr i := by
  cases i with
  | cls | ret => decide
  | jp | call | ldI => simp [encode, decode]
  | seImm | sneImm | ldImm | addImm | rnd => simp [encode, decode]
  | seReg | sneReg | drw => simp [encode, decode]
  | ldReg | orReg | andReg | xorReg | addReg | sub | shr | subn | shl => simp [encode, decode, decodeGroup8]
  | skp | sknp => simp [encode, decode]
  | ldVxDt | ldVxK | ldDtVx | ldStVx | addI | ldF | ldB | ldStore | ldLoad => simp [encode, decode, decodeGroupF]

theorem decode_eq_instr_iff {w : Word} {i : Instr} : decode w = .instr i ↔ encode i = w :=
  ⟨encode_of_decode, fun h => h ▸ decode_encode i⟩

/-! ### A word selected by a row of R58 -/

section
variable {w : Word} {o n : Nibble} {nn : Byte}

theorem fieldO_of_and_F000 (h : w &&& 0xF000#16 = formAddr o 0) : fieldO w = o := by
  rw [← formAddr_fields w, formAddr_and_F000] at h
  simpa using congrArg fieldO h

theorem fields_of_and_F00F (h : w &&& 0xF00F#16 = formNibble o 0 0 n) : fieldO w = o ∧ fieldN w = n := by
  rw [← formNibble_fields w, formNibble_and_F00F] at h
  exact ⟨by simpa using congrArg fieldO h, by simpa using congrArg fieldN h⟩

theorem fields_of_and_F0FF (h : w &&& 0xF0FF#16 = formByte o 0 nn) : fieldO w = o ∧ fieldNn w = nn := by
  rw [← formByte_fields w, formByte_and_F0FF] at h
  exact ⟨by simpa using congrArg fieldO h, by simpa using congrArg fieldNn h⟩

end

/-- Every word a row selects is the word of an instruction of that row. -/
def OpcodeRow.Encodes (r : OpcodeRow) : Prop :=
  ∀ w : Word, r.selects w = true → ∃ i, encode i = w ∧ i.mnemonic = r.mnemonic

section
variable {m : String} {p : Word}

/-- A row of one word. -/
theorem encodes_word (i : Instr) (hm : i.mnemonic = m := by rfl) (he : encode i = p := by rfl) :
    OpcodeRow.Encodes ⟨m, p, 0xFFFF⟩ := by
  intro w h
  have hw : w = p := (BitVec.and_allOnes (x := w)).symm.trans (beq_iff_eq.1 h)
  exact ⟨i, he.trans hw.symm, hm⟩

/-- A row of the form "o nnn". -/
theorem encodes_addr (o : Nibble) (f : Addr → Instr) (hp : p = formAddr o 0 := by rfl)
    (hm : ∀ nnn, (f nnn).mnemonic = m := by intros; rfl)
    (he : ∀ nnn, encode (f nnn) = formAddr o nnn := by intros; rfl) : OpcodeRow.Encodes ⟨m, p, 0xF000⟩ := by
  intro w h
  have ho : fieldO w = o := fieldO_of_and_F000 ((beq_iff_eq.1 h).trans hp)
  exact ⟨f (fieldNnn w), (he _).trans (formAddr_of_fieldO ho), hm _⟩

/-- A row of the form "o x nn". -/
theorem encodes_byte (o : Nibble) (f : RegIdx → Byte → Instr) (hp : p = formAddr o 0 := by rfl)
    (hm : ∀ x nn, (f x nn).mnemonic = m := by intros; rfl)
    (he : ∀ x nn, encode (f x nn) = formByte o x nn := by intros; rfl) : OpcodeRow.Encodes ⟨m, p, 0xF000⟩ := by
  intro w h
  have ho : fieldO w = o := fieldO_of_and_F000 ((beq_iff_eq.1 h).trans hp)
  exact ⟨f (fieldX w) (fieldNn w), (he _ _).trans (formByte_of_fieldO ho), hm _ _⟩

/-- A row of the form "o x minor-byte". -/
theorem encodes_minorByte (o : Nibble) (nn : Byte) (f : RegIdx → Instr) (hp : p = formByte o 0 nn := by rfl)
    (hm : ∀ x, (f x).mnemonic = m := by intros; rfl)
    (he : ∀ x, encode (f x) = formByte o x nn := by intros; rfl) : OpcodeRow.Encodes ⟨m, p, 0xF0FF⟩ := by
  intro w h
  obtain ⟨ho, hn⟩ := fields_of_and_F0FF ((beq_iff_eq.1 h).trans hp)
  exact ⟨f (fieldX w), (he _).trans (formByte_of_fields ho hn), hm _⟩

/-- A row of the form "o x y n". -/
theorem encodes_nibble (o : Nibble) (f : RegIdx → RegIdx → Nibble → Instr) (hp : p = formAddr o 0 := by rfl)
    (hm : ∀ x y n, (f x y n).mnemonic = m := by intros; rfl)
    (he : ∀ x y n, encode (f x y n) = formNibble o x y n := by intros; rfl) : OpcodeRow.Encodes ⟨m, p, 0xF000⟩ := by
  intro w h
  have ho : fieldO w = o := fieldO_of_and_F000 ((beq_iff_eq.1 h).trans hp)
  exact ⟨f (fieldX w) (fieldY w) (fieldN w), (he _ _ _).trans (formNibble_of_fieldO ho), hm _ _ _⟩

/-- A row of the form "o x y minor". -/
theorem encodes_minorNibble (o n : Nibble) (f : RegIdx → RegIdx → Instr) (hp : p = formNibble o 0 0 n := by rfl)
    (hm : ∀ x y, (f x y).mnemonic = m := by intros; rfl)
    (he : ∀ x y, encode (f x y) = formNibble o x y n := by intros; rfl) : OpcodeRow.Encodes ⟨m, p, 0xF00F⟩ := by
  intro w h
  obtain ⟨ho, hn⟩ := fields_of_and_F00F ((beq_iff_eq.1 h).trans hp)
  exact ⟨f (fieldX w) (fieldY w), (he _ _).trans (formNibble_of_fields ho hn), hm _ _⟩

end

theorem encodes_of_opcodeRows0to7 : ∀ r ∈ opcodeRows0to7, r.Encodes := by
  simp only [opcodeRows0to7, List.forall_mem_cons]
  exact ⟨encodes_word .cls, encodes_word .ret, encodes_addr 0x1 .jp, encodes_addr 0x2 .call, encodes_byte 0x3 .seImm,
    encodes_byte 0x4 .sneImm, encodes_minorNibble 0x5 0x0 .seReg, encodes_byte 0x6 .ldImm, encodes_byte 0x7 .addImm,
    List.forall_mem_nil _⟩

theorem encodes_of_opcodeRows8 : ∀ r ∈ opcodeRows8, r.Encodes := by
  simp only [opcodeRows8, List.forall_mem_cons]
  exact ⟨encodes_minorNibble 0x8 0x0 .ldReg, encodes_minorNibble 0x8 0x1 .orReg, encodes_minorNibble 0x8 0x2 .andReg,
    encodes_minorNibble 0x8 0x3 .xorReg, encodes_minorNibble 0x8 0x4 .addReg, encodes_minorNibble 0x8 0x5 .sub,
    encodes_minorNibble 0x8 0x6 .shr, encodes_minorNibble 0x8 0x7 .subn, encodes_minorNibble 0x8 0xE .shl,
    List.forall_mem_nil _⟩

theorem encodes_of_opcodeRows9toF : ∀ r ∈ opcodeRows9toF, r.Encodes := by
  simp only [opcodeRows9toF, List.forall_mem_cons]
  exact ⟨encodes_minorNibble 0x9 0x0 .sneReg, encodes_addr 0xA .ldI, encodes_byte 0xC .rnd, encodes_nibble 0xD .drw,
    encodes_minorByte 0xE 0x9E .skp, encodes_minorByte 0xE 0xA1 .sknp, encodes_minorByte 0xF 0x07 .ldVxDt,
    encodes_minorByte 0xF 0x0A .ldVxK, encodes_minorByte 0xF 0x15 .ldDtVx, encodes_minorByte 0xF 0x18 .ldStVx,
    encodes_minorByte 0xF 0x1E .addI, encodes_minorByte 0xF 0x29 .ldF, encodes_minorByte 0xF 0x33 .ldB,
    encodes_minorByte 0xF 0x55 .ldStore, encodes_minorByte 0xF 0x65 .ldLoad, List.forall_mem_nil _⟩

theorem encodes_of_mem_opcodeRows : ∀ r ∈ opcodeRows, r.Encodes := by
  simp only [opcodeRows, List.forall_mem_append]
  exact ⟨⟨encodes_of_opcodeRows0to7, encodes_of_opcodeRows8⟩, encodes_of_opcodeRows9toF⟩

/-! ### The row of an instruction -/

theorem encodeMatchesRow (i : Instr) : Laws.EncodeMatchesRow.Statement i := by
  open Laws.EncodeMatchesRow in
  cases i with
  | cls => exact cls
  | ret => exact ret
  | jp nnn => exact jp nnn
  | call nnn => exact call nnn
  | seImm x nn => exact seImm x nn
  | sneImm x nn => exact sneImm x nn
  | seReg x y => exact seReg x y
  | ldImm x nn => exact ldImm x nn
  | addImm x nn => exact addImm x nn
  | ldReg x y => exact ldReg x y
  | orReg x y => exact orReg x y
  | andReg x y => exact andReg x y
  | xorReg x y => exact xorReg x y
  | addReg x y => exact addReg x y
  | sub x y => exact sub x y
  | shr x y => exact shr x y
  | subn x y => exact subn x y
  | shl x y => exact shl x y
  | sneReg x y => exact sneReg x y
  | ldI nnn => exact ldI nnn
  | rnd x nn => exact rnd x nn
  | drw x y n => exact drw x y n
  | skp x => exact skp x
  | sknp x => exact sknp x
  | ldVxDt x => exact ldVxDt x
  | ldVxK x => exact ldVxK x
  | ldDtVx x => exact ldDtVx x
  | ldStVx x => exact ldStVx x
  | addI x => exact addI x
  | ldF x => exact ldF x
  | ldB x => exact ldB x
  | ldStore x => exact ldStore x
  | ldLoad x => exact ldLoad x

theorem nodup_mnemonics : (opcodeRows.map OpcodeRow.mnemonic).Nodup := by decide

theorem row_eq_of_mnemonic_eq {r q : OpcodeRow} (hr : r ∈ opcodeRows) (hq : q ∈ opcodeRows)
    (h : r.mnemonic = q.mnemonic) : r = q :=
  List.inj_on_of_nodup_map nodup_mnemonics hr hq h

/-- A row selects a word exactly when the word is that of an instruction of the row. -/
theorem selects_iff {r : OpcodeRow} (hr : r ∈ opcodeRows) (w : Word) :
    r.selects w = true ↔ ∃ i, decode w = .instr i ∧ i.mnemonic = r.mnemonic := by
  simp only [decode_eq_instr_iff]
  constructor
  · exact encodes_of_mem_opcodeRows r hr w
  · rintro ⟨i, rfl, hm⟩
    obtain ⟨q, hq, hqm, hsel⟩ := encodeMatchesRow i
    rwa [row_eq_of_mnemonic_eq hr hq (hm.symm.trans hqm.symm)]

theorem decode_unknown_iff (w : Word) :
    decode w = .unknownOpcode w ↔ ∀ r ∈ opcodeRows, r.selects w = false := by
  constructor
  · intro hu r hr
    rw [Bool.eq_false_iff, Ne, selects_iff hr]
    rintro ⟨i, hi, -⟩
    cases hu.symm.trans hi
  · intro h
    rcases decode_decodesTo w with ⟨i, -, rfl⟩ | hu
    · obtain ⟨r, hr, -, hsel⟩ := encodeMatchesRow i
      rw [h r hr] at hsel
      cases hsel
    · exact hu

theorem row_eq_of_selects {r q : OpcodeRow} (hr : r ∈ opcodeRows) (hq : q ∈ opcodeRows) {w : Word}
    (hrw : r.selects w = true) (hqw : q.selects w = true) : r = q := by
  obtain ⟨i, hi, hir⟩ := (selects_iff hr w).1 hrw
  obtain ⟨j, hj, hjq⟩ := (selects_iff hq w).1 hqw
  obtain rfl : i = j := Decoded.instr.inj (hi.symm.trans hj)
  exact row_eq_of_mnemonic_eq hr hq (hir.symm.trans hjq)

/-! ### The word of a form as a number -/

theorem toNat_append_eq {m n : Nat} (a : BitVec m) (b : BitVec n) :
    (a ++ b).toNat = 2 ^ n * a.toNat + b.toNat := by
  rw [BitVec.toNat_append, ← Nat.shiftLeft_add_eq_or_of_lt b.isLt, Nat.shiftLeft_eq, Nat.mul_comm]

theorem toNat_formAddr (o : Nibble) (nnn : Addr) : (formAddr o nnn).toNat = 4096 * o.toNat + nnn.toNat :=
  toNat_append_eq o nnn

theorem toNat_formByte (o : Nibble) (x : RegIdx) (nn : Byte) :
    (formByte o x nn).toNat = 4096 * o.toNat + 256 * x.val + nn.toNat := by
  have h : (formByte o x nn).toNat = 256 * (16 * o.toNat + x.val) + nn.toNat := by
    rw [formByte, toNat_append_eq, toNat_append_eq]
    rfl
  omega

theorem toNat_formNibble (o n : Nibble) (x y : RegIdx) :
    (formNibble o x y n).toNat = 4096 * o.toNat + 256 * x.val + 16 * y.val + n.toNat := by
  have h : (formNibble o x y n).toNat = 16 * (16 * (16 * o.toNat + x.val) + y.val) + n.toNat := by
    rw [formNibble, toNat_append_eq, toNat_append_eq, toNat_append_eq]
    rfl
  omega

end Sys2Proof

open Sys2Proof

/-- Settles O1, constructor by constructor. -/
theorem decodeOfEncodeIsInstruction : Obligations.DecodeOfEncodeIsInstruction := decode_encode

/-- Settles O2: every branch of the decoder answers an instruction whose word is the fields it tested and read, put
together again. -/
theorem encodeOfDecodeIsWord : Obligations.EncodeOfDecodeIsWord := fun _ _ => encode_of_decode

/-- Settles O3: a row selects exactly the words of its instructions, and its mnemonic is no other row's. -/
theorem decodeFollowsOpcodeMap : Obligations.DecodeFollowsOpcodeMap := fun w =>
  ⟨fun _ hr => selects_iff hr w, decode_unknown_iff w, fun _ hr _ hq => row_eq_of_selects hr hq⟩

/-- Settles O4: each word is written in one of the three forms, and the number of a form is the sum of its fields at
their places. -/
theorem encodeGivesRulesWords : Obligations.EncodeGivesRulesWords := by
  intro x y n nn nnn
  simp [encode, toNat_formAddr, toNat_formByte, toNat_formNibble]
  omega

/-- Settles O5: fourteen words, decoded. -/
theorem writtenOutWordsDecode : Obligations.WrittenOutWordsDecode := by
  unfold Obligations.WrittenOutWordsDecode
  decide

end

section
/-! PROOFS. Calls and returns (40_flow.md): O26, O28 and O29. -/

namespace Sys2Proof.Machine

variable (s : State)

/-! ### The two updates of the stack (R26) -/

/-- A pop, and the jump to the entry popped. -/
def State.returned (h : 0 < s.sp.val) : State :=
  { s with sp := ⟨s.sp.val - 1, by omega⟩, pc := s.stack[s.sp.val - 1] }

/-- A push of PC + 2, and a jump. -/
def State.called (h : s.sp.val < 16) (target : Word) : State :=
  { s with stack := s.stack.set s.sp.val (s.pc + 2), sp := ⟨s.sp.val + 1, by omega⟩, pc := target }

theorem changesOnly_stack (k : Vector Word 16) (n : Fin 17) (p : Word) :
    ChangesOnly s { s with stack := k, sp := n, pc := p } [.stack] := by
  have stack_written : Part.stack ∈ [Part.stack] := List.mem_singleton_self _
  exact ⟨fun _ _ _ => rfl, fun _ => rfl, fun not_written => absurd stack_written not_written, fun _ => rfl,
    fun _ => rfl, fun _ => rfl, fun _ _ => rfl, rfl, rfl, rfl, rfl, rfl, rfl, rfl, rfl⟩

theorem changesOnly_returned (h : 0 < s.sp.val) : ChangesOnly s (s.returned h) [.stack] :=
  changesOnly_stack s _ _ _

theorem changesOnly_called (h : s.sp.val < 16) (target : Word) : ChangesOnly s (s.called h target) [.stack] :=
  changesOnly_stack s _ _ _

/-! ### The instruction's own effect -/

theorem exec_ret_of_pos (h : 0 < s.sp.val) : exec .ret s = .next (s.returned h) := by
  simp only [exec, execRet, State.pop, dif_pos h]
  rfl

theorem exec_ret_of_empty (h : s.sp.val = 0) : exec .ret s = .next (s.raise .stackUnderflow (encode .ret) 0) := by
  have hp : ¬ 0 < s.sp.val := by omega
  simp only [exec, execRet, State.pop, dif_neg hp]

theorem exec_call_of_lt (nnn : Addr) (h : s.sp.val < 16) :
    exec (.call nnn) s = .next (s.called h (zext16 nnn)) := by
  simp only [exec, execCall, State.push, dif_pos h]
  rfl

theorem exec_call_of_full (nnn : Addr) (h : s.sp.val = 16) :
    exec (.call nnn) s = .next (s.raise .stackOverflow (encode (.call nnn)) 0) := by
  have hp : ¬ s.sp.val < 16 := by omega
  simp only [exec, execCall, State.push, dif_neg hp]

/-! ### Taking an error -/

/-- The shape of a failed check: an instruction that answers `raise` enters that error and changes nothing else. -/
theorem entersError_of_exec_eq {i : Instr} {s : State} {e : ExecError} {op addr : Word}
    (h : exec i s = .next (s.raise e op addr)) : ∃ t, exec i s = .next t ∧ EntersError s t e.code op addr :=
  ⟨s.raise e op addr, h, entersError_raise s e op addr⟩

theorem encode_call (nnn : Addr) : encode (.call nnn) = BitVec.ofNat 16 (0x2000 + nnn.toNat) := by
  have h : (encode (.call nnn)).toNat = 0x2000 + nnn.toNat := toNat_formAddr 0x2 nnn
  rw [← h, BitVec.ofNat_toNat, BitVec.setWidth_eq]

/-! ### A call and its return -/

theorem State.called_sp_pos {h : s.sp.val < 16} {target : Word} : 0 < (s.called h target).sp.val := Nat.succ_pos _

/-- A return goes to the entry the call before it pushed. -/
theorem State.returned_called_pc (h : s.sp.val < 16) (target : Word) :
    ((s.called h target).returned s.called_sp_pos).pc = s.pc + 2 := Vector.getElem_set_self h

end Sys2Proof.Machine

open Sys2Proof Sys2Proof.Machine

/-- Settles O26: the check of SP decides between the pop and the error. -/
theorem retPopsReturnAddressOrRaises : Obligations.RetPopsReturnAddressOrRaises := fun s =>
  ⟨fun h => ⟨s.returned h, exec_ret_of_pos s h, rfl, rfl, rfl, changesOnly_returned s h⟩,
    fun h => entersError_of_exec_eq (exec_ret_of_empty s h)⟩

/-- Settles O28: the check of SP decides between the push and the error. -/
theorem callPushesReturnAddressOrRaises : Obligations.CallPushesReturnAddressOrRaises := by
  intro nnn s
  constructor
  · intro h
    have hentry : (s.called h (zext16 nnn)).stack[s.sp.val] = s.pc + 2 := Vector.getElem_set_self h
    have hothers : ∀ j : Fin 16, j.val ≠ s.sp.val → (s.called h (zext16 nnn)).stack[j] = s.stack[j] :=
      fun j hj => Vector.getElem_set_ne h j.isLt (Ne.symm hj)
    exact ⟨s.called h (zext16 nnn), exec_call_of_lt s nnn h, toNat_zext16 nnn, rfl, hentry, hothers,
      changesOnly_called s h _⟩
  · intro h
    rw [← encode_call]
    exact entersError_of_exec_eq (exec_call_of_full s nnn h)

/-- Settles O29: the return pops what the call pushed. -/
theorem callThenRetReturns : Obligations.CallThenRetReturns := by
  intro nnn s t h ht
  obtain rfl : s.called h (zext16 nnn) = t := Host.Outcome.next.inj ((exec_call_of_lt s nnn h).symm.trans ht)
  exact ⟨_, exec_ret_of_pos _ s.called_sp_pos, s.returned_called_pc h _, rfl, changesOnly_stack s _ _ _⟩

end

section
/-! PROOFS. Arithmetic with a flag, shifts and the random byte (41_alu.md sections 3 and 4): O34 to O39. -/

namespace Sys2Proof.Machine

variable (s : State)

/-! ### The values (R19) -/

theorem noBorrow_eq (a b : Byte) : noBorrow a b = if a.toNat > b.toNat then 1 else 0 := by
  simp [noBorrow, flagByte]

theorem toNat_shiftedOutRight (a : Byte) : (shiftedOutRight a).toNat = a.toNat % 2 :=
  (BitVec.toNat_and a 1).trans (Nat.and_one_is_mod a.toNat)

theorem shiftedOutRight_ushiftRight_one : ∀ a : Byte, shiftedOutRight a >>> 1 = 0 := by decide

theorem toNat_ushiftRight_one (a : Byte) : (a >>> 1).toNat = a.toNat / 2 :=
  (BitVec.toNat_ushiftRight a 1).trans (Nat.shiftRight_one a.toNat)

theorem toNat_shiftedOutLeft : ∀ a : Byte, (shiftedOutLeft a).toNat = a.toNat / 128 := by decide

theorem shiftedOutLeft_shiftLeft_one : ∀ a : Byte, shiftedOutLeft a <<< 1 = if a.toNat ≥ 128 then 2 else 0 := by decide

theorem toNat_shiftLeft_one (a : Byte) : (a <<< 1).toNat = 2 * a.toNat % 256 := by
  rw [BitVec.toNat_shiftLeft, Nat.shiftLeft_eq, Nat.mul_comm]

/-! ### The instruction's own effect: a write of VF, then a write of V[x] (R14) -/

/-- Writing VF with the value it has changes nothing. -/
theorem State.setFlag_reg_VF : s.setFlag (s.reg VF) = s := by
  have hv : s.v.set VF (s.reg VF) = s.v := Vector.set_getElem_self VF.isLt
  simp only [State.setFlag, State.setReg, hv]

theorem exec_addReg (x y : RegIdx) :
    exec (.addReg x y) s = .next (s.flagThenResult x (if addCarries (s.reg x) (s.reg y) then 1 else s.reg VF)
      fun _ => trunc8 ((s.reg x).toNat + (s.reg y).toNat)) := by
  simp only [exec, execAddReg, State.flagThenResult]
  split
  case isTrue => rfl
  case isFalse => rw [s.setFlag_reg_VF]

theorem exec_sub (x y : RegIdx) :
    exec (.sub x y) s = .next (s.flagThenResult x (noBorrow (s.reg x) (s.reg y)) fun t => t.reg x - t.reg y) := rfl

theorem exec_subn (x y : RegIdx) :
    exec (.subn x y) s = .next (s.flagThenResult x (noBorrow (s.reg y) (s.reg x)) fun t => t.reg y - t.reg x) := rfl

theorem exec_shr (x y : RegIdx) :
    exec (.shr x y) s = .next (s.flagThenResult x (shiftedOutRight (s.reg x)) fun t => t.reg x >>> 1) := rfl

theorem exec_shl (x y : RegIdx) :
    exec (.shl x y) s = .next (s.flagThenResult x (shiftedOutLeft (s.reg x)) fun t => t.reg x <<< 1) := rfl

theorem exec_rnd (x : RegIdx) (nn : Byte) : exec (.rnd x nn) s = .next (s.setReg x (s.host.rnd &&& nn)).advance := rfl

theorem changesOnly_flagThenResult (x : RegIdx) (flag : Byte) (result : State → Byte) :
    ChangesOnly s (s.flagThenResult x flag result) [.reg x, .reg VF] :=
  changesOnly_setFlag_setReg s x _ flag _

/-- What VF holds after the flag and then V[x] are written, unless x = F. -/
theorem reg_VF_setFlag_setReg {x : RegIdx} (hx : x ≠ VF) (flag b : Byte) :
    ((s.setFlag flag).setReg x b).reg VF = flag :=
  (State.reg_setReg_of_ne _ hx.symm b).trans (s.reg_setReg_same VF flag)

theorem State.reg_setFlag_of_ne {r : RegIdx} (h : r ≠ VF) (flag : Byte) : (s.setFlag flag).reg r = s.reg r :=
  s.reg_setReg_of_ne h flag

theorem State.reg_setFlag_VF (flag : Byte) : (s.setFlag flag).reg VF = flag := s.reg_setReg_same VF flag

/-- The shape the instructions of this part share: VF gets the flag, then V[x] gets a result computed from the
registers after that write, which VF holds in the end for x = F. -/
theorem writesFlag_of_exec_eq {i : Instr} {s : State} {x : RegIdx} {flag : Byte} {result : State → Byte}
    (h : exec i s = .next (s.flagThenResult x flag result)) :
    ∃ t, exec i s = .next t ∧ t.reg x = result (s.setFlag flag) ∧ (x ≠ VF → t.reg VF = flag) ∧ t.pc = s.pc + 2 ∧
      ChangesOnly s t [.reg x, .reg VF] :=
  ⟨_, h, State.reg_setReg_same _ x _, fun hx => reg_VF_setFlag_setReg s hx flag _, rfl,
    changesOnly_flagThenResult s x flag result⟩

/-- A difference of two registers after the flag is written, by whether each of them is VF. -/
theorem sub_regs_setFlag (a b : RegIdx) (flag : Byte) :
    (a ≠ VF → b ≠ VF → (s.setFlag flag).reg a - (s.setFlag flag).reg b = s.reg a - s.reg b) ∧
    (a ≠ VF → b = VF → (s.setFlag flag).reg a - (s.setFlag flag).reg b = s.reg a - flag) ∧
    (a = VF → b ≠ VF → (s.setFlag flag).reg a - (s.setFlag flag).reg b = flag - s.reg b) ∧
    (a = VF → b = VF → (s.setFlag flag).reg a - (s.setFlag flag).reg b = 0) := by
  refine ⟨?_, ?_, ?_, ?_⟩
  · intro ha hb
    rw [s.reg_setFlag_of_ne ha, s.reg_setFlag_of_ne hb]
  · rintro ha rfl
    rw [s.reg_setFlag_of_ne ha, s.reg_setFlag_VF]
  · rintro rfl hb
    rw [s.reg_setFlag_of_ne hb, s.reg_setFlag_VF]
  · rintro rfl rfl
    exact BitVec.sub_self _

end Sys2Proof.Machine

open Sys2Proof Sys2Proof.Machine

/-- Settles O34: a carry or the value VF has is written to VF, and the sum of the registers before it to V[x]. -/
theorem addRegSetsFlagOnCarryOnly : Obligations.AddRegSetsFlagOnCarryOnly := by
  intro x y s
  obtain ⟨t, hexec, hreg, hflag, hframe⟩ := writesFlag_of_exec_eq (exec_addReg s x y)
  have hsum : (t.reg x).toNat = ((s.reg x).toNat + (s.reg y).toNat) % 256 := by rw [hreg, toNat_trunc8]
  refine ⟨t, hexec, hsum, ?_, hframe⟩
  simpa only [addCarries, decide_eq_true_eq] using hflag

/-- Settles O35: the difference is that of V[x] and V[y] after the flag is written. -/
theorem subWritesFlagThenDifference : Obligations.SubWritesFlagThenDifference := by
  intro x y s
  obtain ⟨t, hexec, hreg, hflag, hframe⟩ := writesFlag_of_exec_eq (exec_sub s x y)
  obtain ⟨hnone, hy, hx, hboth⟩ := sub_regs_setFlag s x y (noBorrow (s.reg x) (s.reg y))
  rw [← noBorrow_eq]
  exact ⟨t, hexec, ⟨hflag, hreg ▸ hnone, hreg ▸ hy, hreg ▸ hx, hreg ▸ hboth⟩, hframe⟩

/-- Settles O36: the difference is that of V[y] and V[x] after the flag is written. -/
theorem subnWritesFlagThenDifference : Obligations.SubnWritesFlagThenDifference := by
  intro x y s
  obtain ⟨t, hexec, hreg, hflag, hframe⟩ := writesFlag_of_exec_eq (exec_subn s x y)
  obtain ⟨hnone, hx, hy, hboth⟩ := sub_regs_setFlag s y x (noBorrow (s.reg y) (s.reg x))
  rw [← noBorrow_eq]
  exact ⟨t, hexec, ⟨hflag, fun a b => hreg ▸ hnone b a, fun a b => hreg ▸ hy b a, fun a b => hreg ▸ hx b a,
    fun a b => hreg ▸ hboth b a⟩, hframe⟩

/-- Settles O37: for x = F the register shifted is the flag, whose only bit is shifted out. -/
theorem shrShiftsRightByOne : Obligations.ShrShiftsRightByOne := by
  intro x y s
  obtain ⟨t, hexec, hreg, hflag, hframe⟩ := writesFlag_of_exec_eq (exec_shr s x y)
  refine ⟨t, hexec, ?_, ?_, hframe⟩
  · intro hx
    rw [hflag hx, hreg, s.reg_setFlag_of_ne hx]
    exact ⟨toNat_shiftedOutRight _, toNat_ushiftRight_one _⟩
  · rintro rfl
    rw [hreg, s.reg_setFlag_VF]
    exact shiftedOutRight_ushiftRight_one _

/-- Settles O38: for x = F the register shifted is the flag. -/
theorem shlShiftsLeftByOne : Obligations.ShlShiftsLeftByOne := by
  intro x y s
  obtain ⟨t, hexec, hreg, hflag, hframe⟩ := writesFlag_of_exec_eq (exec_shl s x y)
  refine ⟨t, hexec, ?_, ?_, hframe⟩
  · intro hx
    rw [hflag hx, hreg, s.reg_setFlag_of_ne hx]
    exact ⟨toNat_shiftedOutLeft _, toNat_shiftLeft_one _⟩
  · rintro rfl
    rw [hreg, s.reg_setFlag_VF]
    exact shiftedOutLeft_shiftLeft_one _

/-- Settles O39: one register write, of the latched random byte under the mask. -/
theorem rndMasksRandomByte : Obligations.RndMasksRandomByte := fun x nn s => writesReg_of_exec_eq (exec_rnd s x nn)

end

section
/-! PROOFS. Font pointers, stores and loads (42_index_memory.md section 2): O41 to O45. -/

namespace Sys2Proof.Machine

variable (s : State)

/-! ### The instruction's own effect -/

section
variable (x : RegIdx)

theorem exec_ldF_of_le (h : (s.reg x).toNat ≤ 0xF) :
    exec (.ldF x) s = .next ({ s with i := trunc16 (5 * (s.reg x).toNat) }).advance := by
  simp only [exec, execLdF, if_neg (Nat.not_lt.2 h)]

theorem exec_ldF_of_gt (h : 0xF < (s.reg x).toNat) :
    exec (.ldF x) s = .next (s.raise .invalidFontIndex (encode (.ldF x)) 0) := by
  simp only [exec, execLdF, if_pos h]

theorem exec_ldB_of_le (h : s.i.toNat + 3 ≤ 4096) :
    exec (.ldB x) s = .next (s.putBytes s.i.toNat (bcdDigits (s.reg x))).advance := by
  have hlen : s.i.toNat + (bcdDigits (s.reg x)).length ≤ 4096 := h
  simp only [exec, execLdB, s.storeBytes_of_le hlen]

theorem exec_ldB_of_gt (h : ¬ s.i.toNat + 3 ≤ 4096) :
    exec (.ldB x) s = .next (s.raiseBounds (encode (.ldB x)) s.i.toNat) := by
  have hpos : 0 < (bcdDigits (s.reg x)).length := Nat.succ_pos _
  have hlen : ¬ s.i.toNat + (bcdDigits (s.reg x)).length ≤ 4096 := h
  simp only [exec, execLdB, s.storeBytes_of_not_le hpos hlen]

theorem exec_ldStore_of_le (h : s.i.toNat + (x.val + 1) ≤ 4096) :
    exec (.ldStore x) s = .next (s.putBytes s.i.toNat (s.regsUpTo x)).advance := by
  rw [← s.length_regsUpTo x] at h
  simp only [exec, execLdStore, s.storeBytes_of_le h]

theorem exec_ldStore_of_gt (h : ¬ s.i.toNat + (x.val + 1) ≤ 4096) :
    exec (.ldStore x) s = .next (s.raiseBounds (encode (.ldStore x)) s.i.toNat) := by
  have hpos : 0 < (s.regsUpTo x).length := by simp
  rw [← s.length_regsUpTo x] at h
  simp only [exec, execLdStore, s.storeBytes_of_not_le hpos h]

theorem exec_ldLoad_of_le (h : s.i.toNat + (x.val + 1) ≤ 4096) :
    exec (.ldLoad x) s = .next (s.putRegs 0 (s.bytesFrom s.i.toNat (x.val + 1))).advance := by
  simp only [exec, execLdLoad, s.loadBytes_of_le h]

theorem exec_ldLoad_of_gt (h : ¬ s.i.toNat + (x.val + 1) ≤ 4096) :
    exec (.ldLoad x) s = .next (s.raiseBounds (encode (.ldLoad x)) s.i.toNat) := by
  simp only [exec, execLdLoad, s.loadBytes_of_not_le (Nat.succ_pos _) h]

end

/-- The shape of a failed bounds check at I: MemoryOutOfBounds, with ERR_ADDR of R43. -/
theorem entersError_of_exec_eq_raiseBounds {i : Instr} {s : State} {op : Word} {a : Nat}
    (h : exec i s = .next (s.raiseBounds op a)) :
    ∃ t, exec i s = .next t ∧ EntersError s t 5 op (BitVec.ofNat 16 (max a 0x1000)) :=
  entersError_of_exec_eq (e := .memoryOutOfBounds) h

/-! ### A store of bytes -/

theorem changesOnly_putBytes_advance (a : Nat) (bs : List Byte) :
    ChangesOnly s (s.putBytes a bs).advance [.bytes a bs.length] := changesOnly_putBytes s bs a _

@[simp] theorem State.putBytes_pc (a : Nat) (bs : List Byte) : (s.putBytes a bs).pc = s.pc := by
  rw [s.putBytes_frame]

@[simp] theorem State.readByte_advance (a : Nat) : s.advance.readByte a = s.readByte a := rfl

/-- The `k`-th byte of a store is read back. -/
theorem State.readByte_putBytes_of_getElem? {bs : List Byte} {k : Nat} {b : Byte} (a : Nat) (h : bs[k]? = some b) :
    (s.putBytes a bs).readByte (a + k) = b := by
  rw [s.readByte_putBytes, if_pos (Nat.le_add_right a k), Nat.add_sub_cancel_left, h]
  rfl

/-! ### A load of registers -/

@[simp] theorem State.putRegs_pc (k : Nat) (bs : List Byte) : (s.putRegs k bs).pc = s.pc := by
  rw [s.putRegs_frame]

/-- `V[0]` to `V[x]` after a load are the bytes from `a` upward. -/
theorem State.reg_putRegs_of_le {x k : RegIdx} (h : k ≤ x) (a : Nat) :
    (s.putRegs 0 (s.bytesFrom a (x.val + 1))).reg k = s.readByte (a + k.val) := by
  have hk : k.val < x.val + 1 := Nat.lt_succ_of_le h
  rw [s.reg_putRegs, if_pos (Nat.zero_le _), Nat.sub_zero, s.getElem?_bytesFrom a _ _ hk]
  rfl

theorem State.reg_putRegs_of_gt {x k : RegIdx} (h : x < k) (a : Nat) :
    (s.putRegs 0 (s.bytesFrom a (x.val + 1))).reg k = s.reg k := by
  have hk : (s.bytesFrom a (x.val + 1)).length ≤ k.val := by
    rw [s.length_bytesFrom]
    exact h
  rw [s.reg_putRegs, if_pos (Nat.zero_le _), Nat.sub_zero, List.getElem?_eq_none hk]
  rfl

theorem changesOnly_putRegs_advance (x : RegIdx) (a : Nat) :
    ChangesOnly s (s.putRegs 0 (s.bytesFrom a (x.val + 1))).advance [.regsTo x] := by
  refine ⟨fun r _ above => s.reg_putRegs_of_gt (above x (List.mem_singleton_self _)) a, ?_⟩
  rw [s.putRegs_frame]
  exact ⟨fun _ => rfl, fun _ => ⟨rfl, rfl⟩, fun _ => rfl, fun _ => rfl, fun _ => rfl, fun _ _ => rfl,
    rfl, rfl, rfl, rfl, rfl, rfl, rfl, rfl⟩

end Sys2Proof.Machine

open Sys2Proof Sys2Proof.Machine

/-- Settles O41: the check of V[x] decides between a write of I, which five times a digit does not wrap, and the
error. -/
theorem fontPointerOrInvalidIndex : Obligations.FontPointerOrInvalidIndex := by
  intro x s
  constructor
  · intro h
    obtain ⟨t, hexec, hindex, hframe⟩ := writesIndex_of_exec_eq (exec_ldF_of_le s x h)
    have hvalue : t.i.toNat = 5 * (s.reg x).toNat := by
      rw [hindex, toNat_trunc16]
      omega
    exact ⟨t, hexec, hvalue, hframe⟩
  · intro h
    exact entersError_of_exec_eq (exec_ldF_of_gt s x h)

/-- Settles O42: the bounds check decides between a store of the three digits, none of which truncation changes, and
the error. -/
theorem bcdStoresDigitsOrRaises : Obligations.BcdStoresDigitsOrRaises := by
  intro x s
  constructor
  · intro h
    have hbyte : (s.reg x).toNat < 256 := (s.reg x).isLt
    have hread : ∀ k b, (bcdDigits (s.reg x))[k]? = some (trunc8 b) → b < 256 →
        ((s.putBytes s.i.toNat (bcdDigits (s.reg x))).advance.readByte (s.i.toNat + k)).toNat = b := by
      intro k b hk hb
      rw [State.readByte_advance, s.readByte_putBytes_of_getElem? _ hk, toNat_trunc8, Nat.mod_eq_of_lt hb]
    refine ⟨_, exec_ldB_of_le s x h, hread 0 _ rfl (by omega), hread 1 _ rfl (by omega), hread 2 _ rfl (by omega), ?_,
      changesOnly_putBytes_advance s _ _⟩
    rw [State.advance_pc, State.putBytes_pc]
  · intro h
    exact entersError_of_exec_eq_raiseBounds (exec_ldB_of_gt s x (by omega))

/-- Settles O43: the bounds check decides between a store of V[0] to V[x] and the error. -/
theorem storeWritesRegistersOrRaises : Obligations.StoreWritesRegistersOrRaises := by
  intro x s
  constructor
  · intro h
    refine ⟨_, exec_ldStore_of_le s x h, ?_, ?_, ?_⟩
    · intro k hk
      rw [State.readByte_advance, s.readByte_putBytes_of_getElem? _ (s.getElem?_regsUpTo x k hk)]
    · rw [State.advance_pc, State.putBytes_pc]
    · rw [← s.length_regsUpTo x]
      exact changesOnly_putBytes_advance s _ _
  · intro h
    exact entersError_of_exec_eq_raiseBounds (exec_ldStore_of_gt s x (by omega))

/-- Settles O44: the bounds check decides between a load of V[0] to V[x] and the error. -/
theorem loadReadsRegistersOrRaises : Obligations.LoadReadsRegistersOrRaises := by
  intro x s
  constructor
  · intro h
    refine ⟨_, exec_ldLoad_of_le s x h, ?_, ?_, changesOnly_putRegs_advance s x _⟩
    · intro k hk
      rw [State.reg_advance, s.reg_putRegs_of_le hk]
    · rw [State.advance_pc, State.putRegs_pc]
  · intro h
    exact entersError_of_exec_eq_raiseBounds (exec_ldLoad_of_gt s x (by omega))

/-- Settles O45: the store keeps I and the registers, so the load finds V[0] to V[x] where it left them and keeps
the others. -/
theorem storeThenLoadRestoresRegisters : Obligations.StoreThenLoadRestoresRegisters := by
  intro x s t u h hstore hload r
  obtain ⟨t', hstore', hbytes, -, hregs, hi, -⟩ := (storeWritesRegistersOrRaises x s).1 h
  obtain rfl : t' = t := Host.Outcome.next.inj (hstore'.symm.trans hstore)
  have hi : t'.i = s.i := hi (by simp)
  have hregs : t'.reg r = s.reg r := hregs r (by simp) (by simp)
  obtain ⟨u', hload', hloaded, -, hkept, -⟩ := (loadReadsRegistersOrRaises x t').1 (by rwa [hi])
  obtain rfl : u' = u := Host.Outcome.next.inj (hload'.symm.trans hload)
  rcases le_or_gt r x with hr | hr
  · rw [hloaded r hr, hi, hbytes r hr]
  · rw [hkept r (by simp) (by simpa using hr), hregs]

end

section
/-! PROOFS. Drawing a sprite (43_display.md section 2, DRW): O48 and O49. -/

namespace Sys2Proof.Machine

variable (s : State) (x y : RegIdx) (n : Nibble)

/-! ### The instruction's own effect -/

/-- The framebuffer and the collision after the sprite at I is drawn at V[x], V[y]. -/
def State.canvas : Canvas :=
  (Canvas.mk s.fb false).drawRows (s.reg x).toNat (s.reg y).toNat (s.bytesFrom s.i.toNat n.toNat)

/-- What Dxyn leaves when its bytes are in MEM. -/
def State.drawn : State :=
  (({ s with fb := (s.canvas x y n).fb }).setFlag (flagByte (s.canvas x y n).hit)).advance

theorem exec_drw_of_rangeOk (h : rangeOk s.i.toNat n.toNat = true) : exec (.drw x y n) s = .next (s.drawn x y n) := by
  simp only [exec, execDrw, State.loadBytes, if_pos h]
  rfl

theorem exec_drw_of_not_rangeOk (h : ¬ rangeOk s.i.toNat n.toNat = true) :
    exec (.drw x y n) s = .next (s.raiseBounds (encode (.drw x y n)) s.i.toNat) := by
  simp only [exec, execDrw, State.loadBytes, if_neg h]

theorem rangeOk_iff_of_nibble (a : Nat) : rangeOk a n.toNat = true ↔ n = 0 ∨ a + n.toNat - 1 < 4096 := by
  have hzero : n.toNat = 0 ↔ n = 0 := BitVec.toNat_inj (y := 0)
  rw [rangeOk_iff, ← hzero]
  show _ ∨ _ ≤ 4096 ↔ _
  omega

/-! ### The pixels and the collision -/

theorem changesOnly_drawn : ChangesOnly s (s.drawn x y n) [.display, .reg VF] := changesOnly_display s _ _

theorem pixel_drawn {c r : Nat} (hc : c < 64) (hr : r < 32) :
    (s.drawn x y n).pixel c r =
      (s.pixel c r ^^ spriteBit s (s.reg x).toNat (s.reg y).toNat n.toNat c r) := by
  have hpixel := (Canvas.drawRows_spec (s.bytesFrom s.i.toNat n.toNat) (s.reg x).toNat (s.reg y).toNat
    (Canvas.mk s.fb false)).1 c r
  rw [rowsBit_iff s _ _ _ _ _ hc hr, Bool.decide_eq_true] at hpixel
  exact hpixel

theorem hit_canvas_iff : (s.canvas x y n).hit = true ↔
    ∃ c r, c < 64 ∧ r < 32 ∧
      spriteBit s (s.reg x).toNat (s.reg y).toNat n.toNat c r = true ∧ s.pixel c r = true := by
  have hhit := (Canvas.drawRows_spec (s.bytesFrom s.i.toNat n.toNat) (s.reg x).toNat (s.reg y).toNat
    (Canvas.mk s.fb false)).2
  refine hhit.trans ⟨?_, ?_⟩
  · rintro (h | ⟨c, r, hbit, hlit⟩)
    · cases h
    · have hc : c < 64 := hbit.1
      have hr : r < 32 := hbit.2.1
      exact ⟨c, r, hc, hr, (rowsBit_iff s _ _ _ _ _ hc hr).1 hbit, hlit⟩
  · rintro ⟨c, r, hc, hr, hbit, hlit⟩
    exact .inr ⟨c, r, (rowsBit_iff s _ _ _ _ _ hc hr).2 hbit, hlit⟩

theorem reg_VF_drawn : (s.drawn x y n).reg VF = flagByte (s.canvas x y n).hit := State.reg_setFlag_VF _ _

theorem flagByte_eq_zero_or_one (b : Bool) : flagByte b = 0 ∨ flagByte b = 1 := by
  cases b
  · exact .inl rfl
  · exact .inr rfl

theorem flagByte_eq_one_iff : ∀ b : Bool, flagByte b = 1 ↔ b = true := by decide

/-! ### Drawing again -/

/-- The sprite's bits depend on I and MEM alone. -/
theorem spriteBit_congr {s t : State} (hi : t.i = s.i) (hread : ∀ a, t.readByte a = s.readByte a) (cx cy k c r : Nat) :
    spriteBit t cx cy k c r = spriteBit s cx cy k c r := by
  simp only [spriteBit, hi, hread]

end Sys2Proof.Machine

open Sys2Proof Sys2Proof.Machine

/-- Settles O48: the bounds check decides between the draw, told pixel by pixel, and the error. -/
theorem drwXorsSpriteAndFlagsCollision : Obligations.DrwXorsSpriteAndFlagsCollision := by
  intro x y n s
  constructor
  · intro h
    have hexec := exec_drw_of_rangeOk s x y n ((rangeOk_iff_of_nibble n _).2 h)
    refine ⟨_, hexec, fun c r => pixel_drawn s x y n, ?_, ?_, rfl, changesOnly_drawn s x y n⟩
    · rw [reg_VF_drawn]
      exact flagByte_eq_zero_or_one _
    · rw [reg_VF_drawn, flagByte_eq_one_iff, hit_canvas_iff]
  · intro hn h
    refine entersError_of_exec_eq_raiseBounds (exec_drw_of_not_rangeOk s x y n ?_)
    rw [rangeOk_iff_of_nibble]
    rintro (h0 | hin)
    · exact hn h0
    · omega

/-- Settles O49: the first draw keeps I, MEM, V[x] and V[y], so the second inverts the same pixels again. -/
theorem drwTwiceRestoresFramebuffer : Obligations.DrwTwiceRestoresFramebuffer := by
  intro x y n s t u hx hy _ ht hready hu
  by_cases hok : rangeOk s.i.toNat n.toNat = true
  case neg =>
    cases (exec_drw_of_not_rangeOk s x y n hok).symm.trans ht
    cases hready
  obtain rfl : s.drawn x y n = t := Host.Outcome.next.inj ((exec_drw_of_rangeOk s x y n hok).symm.trans ht)
  obtain ⟨hregs, hi, -, -, -, -, hread, -⟩ := changesOnly_drawn s x y n
  have hi : (s.drawn x y n).i = s.i := hi (by simp)
  have hread : ∀ a, (s.drawn x y n).readByte a = s.readByte a := fun a => hread a (by simp)
  have hreg : ∀ r, r ≠ VF → (s.drawn x y n).reg r = s.reg r := fun r hr => hregs r (by simpa using hr) (by simp)
  rw [← hi] at hok
  obtain rfl : (s.drawn x y n).drawn x y n = u :=
    Host.Outcome.next.inj ((exec_drw_of_rangeOk _ x y n hok).symm.trans hu)
  refine Framebuffer.ext_pixel _ _ fun c r hc hr => ?_
  calc ((s.drawn x y n).drawn x y n).pixel c r
      = ((s.drawn x y n).pixel c r ^^ spriteBit s (s.reg x).toNat (s.reg y).toNat n.toNat c r) := by
        rw [pixel_drawn _ x y n hc hr, spriteBit_congr hi hread, hreg x hx, hreg y hy]
    _ = s.pixel c r := by rw [pixel_drawn s x y n hc hr, Bool.xor_assoc, Bool.xor_self, Bool.xor_false]

end

section
/-! PROOFS. The keypad (44_keypad_timers.md section 2, SKP, SKNP and LD Vx, K): O50, O52 and O53. -/

namespace Sys2Proof.Machine

variable (s : State) (x : RegIdx)

/-! ### The instruction's own effect -/

theorem exec_skp_of_le (h : (s.reg x).toNat ≤ 0xF) :
    exec (.skp x) s = .next (s.skipIf (s.keyPressed (s.reg x).toNat)) := by
  simp only [exec, execSkp, if_neg (Nat.not_lt.2 h)]

theorem exec_skp_of_gt (h : 0xF < (s.reg x).toNat) :
    exec (.skp x) s = .next (s.raise .invalidKeyIndex (encode (.skp x)) 0) := by
  simp only [exec, execSkp, if_pos h]

theorem exec_sknp_of_le (h : (s.reg x).toNat ≤ 0xF) :
    exec (.sknp x) s = .next (s.skipIf (!s.keyPressed (s.reg x).toNat)) := by
  simp only [exec, execSknp, if_neg (Nat.not_lt.2 h)]

theorem exec_sknp_of_gt (h : 0xF < (s.reg x).toNat) :
    exec (.sknp x) s = .next (s.raise .invalidKeyIndex (encode (.sknp x)) 0) := by
  simp only [exec, execSknp, if_pos h]

theorem exec_ldVxK : exec (.ldVxK x) s = .next (s.afterKeyWait x) := rfl

/-! ### Waiting for a key -/

theorem State.afterKeyWait_of_some {k : Nat} (h : s.lowestKey = some k) :
    s.afterKeyWait x = (s.setReg x (trunc8 k)).advance := by
  simp only [State.afterKeyWait, h]
  rfl

theorem State.afterKeyWait_of_none (h : s.lowestKey = none) : s.afterKeyWait x = s := by
  simp only [State.afterKeyWait, h]

end Sys2Proof.Machine

open Sys2Proof Sys2Proof.Machine

/-- Settles O50: the check of V[x] decides between the skip, on the key's bit or its negation, and the error. -/
theorem keySkipsTestSnapshotOrRaise : Obligations.KeySkipsTestSnapshotOrRaise := by
  intro x s
  constructor
  · intro h
    refine ⟨skips_of_exec_eq (exec_skp_of_le s x h), ?_⟩
    simpa only [State.keyPressed, Bool.not_eq_true', ← Bool.not_eq_true, ite_not] using
      skips_of_exec_eq (exec_sknp_of_le s x h)
  · intro h
    exact ⟨entersError_of_exec_eq (exec_skp_of_gt s x h), entersError_of_exec_eq (exec_sknp_of_gt s x h)⟩

/-- Settles O52: the lowest pressed key is written to V[x], and a key number fits in a byte. -/
theorem keyWaitTakesLowestKey : Obligations.KeyWaitTakesLowestKey := by
  intro x s k hk hpressed hlowest
  have hexec : exec (.ldVxK x) s = .next (s.setReg x (trunc8 k)).advance := by
    rw [exec_ldVxK, s.afterKeyWait_of_some x (s.lowestKey_eq_some hk hpressed hlowest)]
  obtain ⟨t, ht, hreg, hframe⟩ := writesReg_of_exec_eq hexec
  have hvalue : (t.reg x).toNat = k := by
    rw [hreg, toNat_trunc8]
    omega
  exact ⟨t, ht, hvalue, hframe⟩

/-- Settles O53: with no key pressed there is no lowest one. -/
theorem keyWaitHoldsPcWithoutKey : Obligations.KeyWaitHoldsPcWithoutKey := by
  intro x s h
  rw [exec_ldVxK, s.afterKeyWait_of_none x (s.lowestKey_eq_none h)]

end

section
/-! PROOFS. What each of the 33 instructions can answer (60_exceptions.md section 1, 10_state.md sections 2 to 8): O7,
O21 and O22. -/

namespace Sys2Proof.Machine

variable {s t : State} {i : Instr}

/-! ### The two answers -/

/-- An instruction fetched from MEM keeps PC, the return addresses and MEM as the invariant asks (R23). -/
def KeepsRanges (s t : State) : Prop :=
  s.pc.toNat + 1 < 4096 → s.AddressesInRange → Memory.wf s.config s.mem = true →
    t.AddressesInRange ∧ Memory.wf t.config t.mem = true

/-- The instruction `i` ran to its end from `s` and left `t`. -/
structure Completes (s : State) (i : Instr) (t : State) : Prop where
  noError : errorOf s i = none
  frame : ChangesOnly s t (partsWritten s i)
  ranges : KeepsRanges s t

/-- The ERR_ADDR of an error is outside MEM for MemoryOutOfBounds and 0 for every other (R105). -/
def ErrAddrFits (e : ExecError) (addr : Word) : Prop :=
  (e = .memoryOutOfBounds → 0x1000 ≤ addr.toNat) ∧ (e ≠ .memoryOutOfBounds → addr = 0)

/-- The instruction `i` took, in `s`, the error its check raises, and left `t`. -/
structure Raises (s : State) (i : Instr) (e : ExecError) (addr : Word) (t : State) : Prop where
  error : errorOf s i = some (e.code, addr)
  entry : t = s.raise e (encode i) addr
  errAddr : ErrAddrFits e addr

/-- The instruction answers a next state, at its end or by its error. -/
def Answers (i : Instr) (s : State) : Prop :=
  ∃ t, exec i s = .next t ∧ (Completes s i t ∨ ∃ e addr, Raises s i e addr t)

theorem ErrAddrFits.zero {e : ExecError} (he : e ≠ .memoryOutOfBounds) : ErrAddrFits e 0 :=
  ⟨fun h => absurd h he, fun _ => rfl⟩

theorem ErrAddrFits.bounds (a : Word) : ErrAddrFits .memoryOutOfBounds (rangeErrAddr a.toNat) :=
  ⟨fun _ => le_rangeErrAddr a, fun h => absurd rfl h⟩

theorem answers_of_raise {e : ExecError} (h : exec i s = .next (s.raise e (encode i) 0))
    (herr : errorOf s i = some (e.code, 0)) (he : e ≠ .memoryOutOfBounds := by decide) : Answers i s :=
  ⟨_, h, .inr ⟨e, 0, herr, rfl, .zero he⟩⟩

theorem answers_of_raiseBounds (h : exec i s = .next (s.raiseBounds (encode i) s.i.toNat))
    (herr : errorOf s i = some (boundsErrorAtI s)) : Answers i s :=
  ⟨_, h, .inr ⟨.memoryOutOfBounds, rangeErrAddr s.i.toNat, herr, rfl, .bounds s.i⟩⟩

theorem answers_of_completes (h : exec i s = .next t) (herr : errorOf s i = none)
    (hframe : ChangesOnly s t (partsWritten s i)) (hranges : KeepsRanges s t) : Answers i s :=
  ⟨t, h, .inl ⟨herr, hframe, hranges⟩⟩

theorem changesOnly_refl (s : State) (ps : List Part) : ChangesOnly s s ps :=
  ⟨fun _ _ _ => rfl, fun _ => rfl, fun _ => ⟨rfl, rfl⟩, fun _ => rfl, fun _ => rfl, fun _ => rfl, fun _ _ => rfl,
    rfl, rfl, rfl, rfl, rfl, rfl, rfl, rfl⟩

/-! ### PC, the return addresses and MEM after each shape of update -/

theorem toNat_add_le (p q : Word) : (p + q).toNat ≤ p.toNat + q.toNat := by
  rw [BitVec.toNat_add]
  exact Nat.mod_le _ _

theorem keepsRanges_of_pc (hpc : s.pc.toNat + 1 < 4096 → t.pc.toNat ≤ 0x1002) (hstack : t.stack = s.stack)
    (hmem : t.mem = s.mem) (hconfig : t.config = s.config) : KeepsRanges s t := by
  intro hfetch haddr hwf
  refine ⟨⟨hpc hfetch, fun j => ?_⟩, by rwa [hmem, hconfig]⟩
  rw [hstack]
  exact haddr.2 j

theorem keepsRanges_of_advance (hpc : t.pc = s.pc + 2) (hstack : t.stack = s.stack) (hmem : t.mem = s.mem)
    (hconfig : t.config = s.config) : KeepsRanges s t := by
  refine keepsRanges_of_pc (fun hfetch => ?_) hstack hmem hconfig
  have hle : (s.pc + 2).toNat ≤ s.pc.toNat + 2 := toNat_add_le s.pc 2
  rw [hpc]
  omega

theorem keepsRanges_skipIf (c : Bool) : KeepsRanges s (s.skipIf c) := by
  refine keepsRanges_of_pc (fun hfetch => ?_) rfl rfl rfl
  have hle := toNat_add_le s.pc (if c then 4 else 2)
  have hskip : (if c then 4 else 2 : Word).toNat ≤ 4 := by cases c <;> decide
  rw [s.skipIf_pc_eq_add]
  omega

theorem toNat_zext16_le (nnn : Addr) : (zext16 nnn).toNat ≤ 0x1002 := by
  rw [toNat_zext16]
  have := nnn.isLt
  omega

theorem keepsRanges_jump (nnn : Addr) : KeepsRanges s (s.jump (zext16 nnn)) :=
  keepsRanges_of_pc (fun _ => toNat_zext16_le nnn) rfl rfl rfl

theorem keepsRanges_returned (h : 0 < s.sp.val) : KeepsRanges s (s.returned h) := by
  intro _ haddr hwf
  have hentry : s.stack[s.sp.val - 1].toNat ≤ 0x1000 := haddr.2 ⟨s.sp.val - 1, by omega⟩
  exact ⟨⟨hentry.trans (by decide), haddr.2⟩, hwf⟩

theorem keepsRanges_called (h : s.sp.val < 16) (nnn : Addr) : KeepsRanges s (s.called h (zext16 nnn)) := by
  intro hfetch haddr hwf
  refine ⟨⟨toNat_zext16_le nnn, fun j => ?_⟩, hwf⟩
  show ((s.stack.set s.sp.val (s.pc + 2))[j.val]).toNat ≤ 0x1000
  rw [Vector.getElem_set]
  split
  case isTrue =>
    have hle : (s.pc + 2).toNat ≤ s.pc.toNat + 2 := toNat_add_le s.pc 2
    omega
  case isFalse => exact haddr.2 j

theorem keepsRanges_putBytes_advance {a : Nat} {bs : List Byte} (h : a + bs.length ≤ 4096) :
    KeepsRanges s (s.putBytes a bs).advance := by
  intro hfetch haddr hwf
  have hmem := s.wf_putBytes bs a hwf h
  rw [s.putBytes_frame] at hmem ⊢
  have hpc : KeepsRanges s s.advance := keepsRanges_of_advance rfl rfl rfl rfl
  exact ⟨(hpc hfetch haddr hwf).1, hmem⟩

theorem keepsRanges_putRegs_advance (k : Nat) (bs : List Byte) : KeepsRanges s (s.putRegs k bs).advance := by
  rw [s.putRegs_frame]
  exact keepsRanges_of_advance rfl rfl rfl rfl

/-! ### The shapes several instructions share -/

theorem answers_of_skipIf {c : Bool} (h : exec i s = .next (s.skipIf c)) (herr : errorOf s i = none)
    (hparts : partsWritten s i = []) : Answers i s :=
  answers_of_completes h herr (hparts ▸ changesOnly_skipIf s c) (keepsRanges_skipIf c)

theorem answers_of_setReg {x : RegIdx} {b : Byte} (h : exec i s = .next (s.setReg x b).advance)
    (herr : errorOf s i = none) (hparts : partsWritten s i = [.reg x]) : Answers i s :=
  answers_of_completes h herr (hparts ▸ changesOnly_setReg_advance s x b) (keepsRanges_of_advance rfl rfl rfl rfl)

theorem answers_of_flagThenResult {x : RegIdx} {flag : Byte} {result : State → Byte}
    (h : exec i s = .next (s.flagThenResult x flag result)) (herr : errorOf s i = none)
    (hparts : partsWritten s i = [.reg x, .reg VF]) : Answers i s :=
  answers_of_completes h herr (hparts ▸ changesOnly_flagThenResult s x flag result)
    (keepsRanges_of_advance rfl rfl rfl rfl)

theorem answers_of_index {w : Word} (h : exec i s = .next ({ s with i := w }).advance) (herr : errorOf s i = none)
    (hparts : partsWritten s i = [.index]) : Answers i s :=
  answers_of_completes h herr (hparts ▸ changesOnly_index_advance s w) (keepsRanges_of_advance rfl rfl rfl rfl)

theorem answers_of_putBytes {bs : List Byte} (h : exec i s = .next (s.putBytes s.i.toNat bs).advance)
    (hle : s.i.toNat + bs.length ≤ 4096) (herr : errorOf s i = none)
    (hparts : partsWritten s i = [.bytes s.i.toNat bs.length]) : Answers i s :=
  answers_of_completes h herr (hparts ▸ changesOnly_putBytes_advance s _ bs) (keepsRanges_putBytes_advance hle)

/-! ### The instructions with a check -/

section
variable (s : State) (x y : RegIdx)

theorem answers_ret : Answers .ret s := by
  rcases Nat.eq_zero_or_pos s.sp.val with h | h
  · exact answers_of_raise (exec_ret_of_empty s h) (if_pos h)
  · exact answers_of_completes (exec_ret_of_pos s h) (if_neg h.ne') (changesOnly_returned s h) (keepsRanges_returned h)

theorem answers_call (nnn : Addr) : Answers (.call nnn) s := by
  rcases Nat.lt_or_eq_of_le (Nat.le_of_lt_succ s.sp.isLt) with h | h
  · exact answers_of_completes (exec_call_of_lt s nnn h) (if_neg h.ne) (changesOnly_called s h _)
      (keepsRanges_called h nnn)
  · exact answers_of_raise (exec_call_of_full s nnn h) (if_pos h)

theorem answers_ldF : Answers (.ldF x) s := by
  rcases Nat.lt_or_ge 0xF (s.reg x).toNat with h | h
  · exact answers_of_raise (exec_ldF_of_gt s x h) (if_pos h)
  · exact answers_of_index (exec_ldF_of_le s x h) (if_neg (Nat.not_lt.2 h)) rfl

theorem answers_skp : Answers (.skp x) s := by
  rcases Nat.lt_or_ge 0xF (s.reg x).toNat with h | h
  · exact answers_of_raise (exec_skp_of_gt s x h) (if_pos h)
  · exact answers_of_skipIf (exec_skp_of_le s x h) (if_neg (Nat.not_lt.2 h)) rfl

theorem answers_sknp : Answers (.sknp x) s := by
  rcases Nat.lt_or_ge 0xF (s.reg x).toNat with h | h
  · exact answers_of_raise (exec_sknp_of_gt s x h) (if_pos h)
  · exact answers_of_skipIf (exec_sknp_of_le s x h) (if_neg (Nat.not_lt.2 h)) rfl

theorem answers_drw (n : Nibble) : Answers (.drw x y n) s := by
  have hok := rangeOk_iff_of_nibble n s.i.toNat
  by_cases h : rangeOk s.i.toNat n.toNat = true
  · have hin := hok.1 h
    refine answers_of_completes (exec_drw_of_rangeOk s x y n h) (if_neg ?_) (changesOnly_drawn s x y n)
      (keepsRanges_of_advance rfl rfl rfl rfl)
    rintro ⟨hn, hout⟩
    exact hin.elim hn (Nat.not_lt.2 hout)
  · have hout := mt hok.2 h
    refine answers_of_raiseBounds (exec_drw_of_not_rangeOk s x y n h) (if_pos ⟨fun hn => hout (.inl hn), ?_⟩)
    exact Nat.not_lt.1 fun hin => hout (.inr hin)

theorem answers_ldB : Answers (.ldB x) s := by
  by_cases h : s.i.toNat + 3 ≤ 4096
  · exact answers_of_putBytes (exec_ldB_of_le s x h) h (if_neg (by omega)) rfl
  · exact answers_of_raiseBounds (exec_ldB_of_gt s x h) (if_pos (by omega))

theorem answers_ldStore : Answers (.ldStore x) s := by
  by_cases h : s.i.toNat + (x.val + 1) ≤ 4096
  · have hlen := s.length_regsUpTo x
    refine answers_of_putBytes (exec_ldStore_of_le s x h) (by rwa [hlen]) (if_neg (by omega)) ?_
    rw [hlen]
    rfl
  · exact answers_of_raiseBounds (exec_ldStore_of_gt s x h) (if_pos (by omega))

theorem answers_ldLoad : Answers (.ldLoad x) s := by
  by_cases h : s.i.toNat + (x.val + 1) ≤ 4096
  · exact answers_of_completes (exec_ldLoad_of_le s x h) (if_neg (by omega)) (changesOnly_putRegs_advance s x _)
      (keepsRanges_putRegs_advance _ _)
  · exact answers_of_raiseBounds (exec_ldLoad_of_gt s x h) (if_pos (by omega))

/-- Fx0A writes V[x] and advances, or waits and writes nothing, PC included. -/
theorem answers_ldVxK : Answers (.ldVxK x) s := by
  have hexec := exec_ldVxK s x
  cases hkey : s.lowestKey with
  | none =>
    rw [s.afterKeyWait_of_none x hkey] at hexec
    exact answers_of_completes hexec rfl (changesOnly_refl s _) fun _ haddr hwf => ⟨haddr, hwf⟩
  | some k =>
    rw [s.afterKeyWait_of_some x hkey] at hexec
    exact answers_of_setReg hexec rfl rfl

/-! ### Every instruction -/

theorem exec_answers (i : Instr) : Answers i s := by
  cases i with
  | cls =>
    exact answers_of_completes (exec_cls s) rfl (changesOnly_fb_advance s _) (keepsRanges_of_advance rfl rfl rfl rfl)
  | ret => exact answers_ret s
  | jp nnn => exact answers_of_completes (exec_jp s nnn) rfl (changesOnly_jump s _) (keepsRanges_jump nnn)
  | call nnn => exact answers_call s nnn
  | seImm x nn => exact answers_of_skipIf (exec_seImm s x nn) rfl rfl
  | sneImm x nn => exact answers_of_skipIf (exec_sneImm s x nn) rfl rfl
  | seReg x y => exact answers_of_skipIf (exec_seReg s x y) rfl rfl
  | ldImm x nn => exact answers_of_setReg (exec_ldImm s x nn) rfl rfl
  | addImm x nn => exact answers_of_setReg (exec_addImm s x nn) rfl rfl
  | ldReg x y => exact answers_of_setReg (exec_ldReg s x y) rfl rfl
  | orReg x y => exact answers_of_setReg (exec_orReg s x y) rfl rfl
  | andReg x y => exact answers_of_setReg (exec_andReg s x y) rfl rfl
  | xorReg x y => exact answers_of_setReg (exec_xorReg s x y) rfl rfl
  | addReg x y => exact answers_of_flagThenResult (exec_addReg s x y) rfl rfl
  | sub x y => exact answers_of_flagThenResult (exec_sub s x y) rfl rfl
  | shr x y => exact answers_of_flagThenResult (exec_shr s x y) rfl rfl
  | subn x y => exact answers_of_flagThenResult (exec_subn s x y) rfl rfl
  | shl x y => exact answers_of_flagThenResult (exec_shl s x y) rfl rfl
  | sneReg x y => exact answers_of_skipIf (exec_sneReg s x y) rfl rfl
  | ldI nnn => exact answers_of_index (exec_ldI s nnn) rfl rfl
  | rnd x nn => exact answers_of_setReg (exec_rnd s x nn) rfl rfl
  | drw x y n => exact answers_drw s x y n
  | skp x => exact answers_skp s x
  | sknp x => exact answers_sknp s x
  | ldVxDt x => exact answers_of_setReg (exec_ldVxDt s x) rfl rfl
  | ldVxK x => exact answers_ldVxK s x
  | ldDtVx x =>
    exact answers_of_completes (exec_ldDtVx s x) rfl (changesOnly_delay_advance s _)
      (keepsRanges_of_advance rfl rfl rfl rfl)
  | ldStVx x =>
    exact answers_of_completes (exec_ldStVx s x) rfl (changesOnly_sound_advance s _)
      (keepsRanges_of_advance rfl rfl rfl rfl)
  | addI x => exact answers_of_index (exec_addI s x) rfl rfl
  | ldF x => exact answers_ldF s x
  | ldB x => exact answers_ldB s x
  | ldStore x => exact answers_ldStore s x
  | ldLoad x => exact answers_ldLoad s x

end

/-- What an instruction can do: run to its end or take the error of its check. -/
theorem exec_cases (h : exec i s = .next t) : Completes s i t ∨ ∃ e addr, Raises s i e addr t := by
  obtain ⟨u, hu, hcases⟩ := exec_answers s i
  obtain rfl : u = t := Host.Outcome.next.inj (hu.symm.trans h)
  exact hcases

theorem Raises.entersError {e : ExecError} {addr : Word} (h : Raises s i e addr t) :
    EntersError s t e.code (encode i) addr := by
  rw [h.entry]
  exact entersError_raise s e (encode i) addr

theorem Raises.halted {e : ExecError} {addr : Word} (h : Raises s i e addr t) : t.status = .halted := by
  rw [h.entry]
  rfl

/-- Outside the nine instructions of R105 there is no cause of an error. -/
theorem errorOf_eq_none_of_mnemonic
    (h : i.mnemonic ∉ ["CALL", "RET", "LD_F", "DRW", "LD_B", "LD_store", "LD_load", "SKP", "SKNP"]) :
    errorOf s i = none := by
  cases i with
  | call | ret | ldF | drw | ldB | ldStore | ldLoad | skp | sknp => exact absurd (by simp [Instr.mnemonic]) h
  | _ => rfl

end Sys2Proof.Machine

open Sys2Proof Sys2Proof.Machine

/-- Settles O7: each instruction completes where `errorOf` names no error, and takes the one it names. -/
theorem everyInstructionAnswersNextState : Obligations.EveryInstructionAnswersNextState := by
  intro i s
  obtain ⟨t, hexec, hcompletes | ⟨e, addr, hraises⟩⟩ := exec_answers s i
  · refine ⟨t, hexec, fun _ => hcompletes.frame, fun code addr herr => ?_⟩
    cases hcompletes.noError.symm.trans herr
  · refine ⟨t, hexec, fun hnone => ?_, fun code addr' herr => ?_⟩
    · cases hnone.symm.trans hraises.error
    · cases herr.symm.trans hraises.error
      exact hraises.entersError

/-- Settles O21: a READY core after the instruction means that it did not raise. -/
theorem instructionsWriteOnlyTheirParts : Obligations.InstructionsWriteOnlyTheirParts := by
  intro i s t _ hexec hready
  obtain hcompletes | ⟨e, addr, hraises⟩ := exec_cases hexec
  · exact hcompletes.frame
  · cases hraises.halted.symm.trans hready

/-- Settles O22: the instructions named are those for which `errorOf` has a cause. -/
theorem otherInstructionsNeverRaise : Obligations.OtherInstructionsNeverRaise := by
  intro i s hi
  obtain ⟨t, hexec, hframe, -⟩ := everyInstructionAnswersNextState i s
  exact ⟨t, hexec, (hframe (errorOf_eq_none_of_mnemonic hi)).sameStatus⟩

end

section
/-! PROOFS. What the instructions read of the host's port (10_state.md section 10): O23 and O24. -/

namespace Sys2Proof.Machine

/-! ### The host's port changed from outside -/

/-- The same core with the host's port put through `f`. -/
def State.mapHost (f : HostPort → HostPort) (s : State) : State := { s with host := f s.host }

/-- An answer with its next state put through `g`. -/
def mapNext (g : State → State) : Result → Result
  | .next t => .next (g t)
  | .fault r => .fault r
  | .refused r => .refused r

@[simp] theorem mapNext_next (g : State → State) (t : State) : mapNext g (.next t) = .next (g t) := rfl

/-- The change is one of a STEP's inputs: an instruction that writes the result the host gets writes the same. -/
def KeepsResult (f : HostPort → HostPort) : Prop :=
  ∀ (p : HostPort) (r : OpResult), { f p with result := r } = f { p with result := r }

section
variable {f : HostPort → HostPort} (s : State)

theorem mapHost_raise (hf : KeepsResult f) (e : ExecError) (op addr : Word) :
    (s.mapHost f).raise e op addr = (s.raise e op addr).mapHost f := by
  have hhost : ((s.mapHost f).raise e op addr).host = f { s.host with result := .error e.code } := hf s.host _
  show { s.raise e op addr with host := ((s.mapHost f).raise e op addr).host } = _
  rw [hhost]
  rfl

theorem mapHost_bytesFrom (a n : Nat) : (s.mapHost f).bytesFrom a n = s.bytesFrom a n := by
  induction n generalizing a with
  | zero => rfl
  | succ n ih => exact congrArg (s.readByte a :: ·) (ih (a + 1))

theorem mapHost_putBytes (a : Nat) (bs : List Byte) :
    (s.mapHost f).putBytes a bs = (s.putBytes a bs).mapHost f := by
  induction bs generalizing s a with
  | nil => rfl
  | cons b bs ih => exact ih (s.writeByte a b) (a + 1)

theorem mapHost_putRegs (k : Nat) (bs : List Byte) :
    (s.mapHost f).putRegs k bs = (s.putRegs k bs).mapHost f := by
  induction bs generalizing s k with
  | nil => rfl
  | cons b bs ih =>
    unfold State.putRegs
    split
    case isTrue h => exact ih (s.setReg ⟨k, h⟩ b) (k + 1)
    case isFalse => rfl

theorem mapHost_drawn (x y : RegIdx) (n : Nibble) : (s.mapHost f).drawn x y n = (s.drawn x y n).mapHost f := by
  have hcanvas : (s.mapHost f).canvas x y n = s.canvas x y n :=
    congrArg ((Canvas.mk s.fb false).drawRows (s.reg x).toNat (s.reg y).toNat) (mapHost_bytesFrom s _ _)
  unfold State.drawn
  rw [hcanvas]
  rfl

/-! ### Instructions with a check, which do not look at the port -/

theorem exec_ret_mapHost (hf : KeepsResult f) : exec .ret (s.mapHost f) = mapNext (.mapHost f) (exec .ret s) := by
  rcases Nat.eq_zero_or_pos s.sp.val with h | h
  · rw [exec_ret_of_empty s h, exec_ret_of_empty (s.mapHost f) h, mapHost_raise s hf, mapNext_next]
  · rw [exec_ret_of_pos s h, exec_ret_of_pos (s.mapHost f) h]
    rfl

theorem exec_call_mapHost (hf : KeepsResult f) (nnn : Addr) :
    exec (.call nnn) (s.mapHost f) = mapNext (.mapHost f) (exec (.call nnn) s) := by
  rcases Nat.lt_or_eq_of_le (Nat.le_of_lt_succ s.sp.isLt) with h | h
  · rw [exec_call_of_lt s nnn h, exec_call_of_lt (s.mapHost f) nnn h]
    rfl
  · rw [exec_call_of_full s nnn h, exec_call_of_full (s.mapHost f) nnn h, mapHost_raise s hf, mapNext_next]

theorem exec_ldF_mapHost (hf : KeepsResult f) (x : RegIdx) :
    exec (.ldF x) (s.mapHost f) = mapNext (.mapHost f) (exec (.ldF x) s) := by
  rcases Nat.lt_or_ge 0xF (s.reg x).toNat with h | h
  · rw [exec_ldF_of_gt s x h, exec_ldF_of_gt (s.mapHost f) x h, mapHost_raise s hf, mapNext_next]
  · rw [exec_ldF_of_le s x h, exec_ldF_of_le (s.mapHost f) x h]
    rfl

theorem exec_drw_mapHost (hf : KeepsResult f) (x y : RegIdx) (n : Nibble) :
    exec (.drw x y n) (s.mapHost f) = mapNext (.mapHost f) (exec (.drw x y n) s) := by
  by_cases h : rangeOk s.i.toNat n.toNat = true
  · rw [exec_drw_of_rangeOk s x y n h, exec_drw_of_rangeOk (s.mapHost f) x y n h, mapHost_drawn, mapNext_next]
  · rw [exec_drw_of_not_rangeOk s x y n h, exec_drw_of_not_rangeOk (s.mapHost f) x y n h]
    exact congrArg Host.Outcome.next (mapHost_raise s hf _ _ _)

theorem exec_ldB_mapHost (hf : KeepsResult f) (x : RegIdx) :
    exec (.ldB x) (s.mapHost f) = mapNext (.mapHost f) (exec (.ldB x) s) := by
  by_cases h : s.i.toNat + 3 ≤ 4096
  · rw [exec_ldB_of_le s x h, exec_ldB_of_le (s.mapHost f) x h, mapHost_putBytes]
    rfl
  · rw [exec_ldB_of_gt s x h, exec_ldB_of_gt (s.mapHost f) x h]
    exact congrArg Host.Outcome.next (mapHost_raise s hf _ _ _)

theorem exec_ldStore_mapHost (hf : KeepsResult f) (x : RegIdx) :
    exec (.ldStore x) (s.mapHost f) = mapNext (.mapHost f) (exec (.ldStore x) s) := by
  by_cases h : s.i.toNat + (x.val + 1) ≤ 4096
  · rw [exec_ldStore_of_le s x h, exec_ldStore_of_le (s.mapHost f) x h, mapHost_putBytes]
    rfl
  · rw [exec_ldStore_of_gt s x h, exec_ldStore_of_gt (s.mapHost f) x h]
    exact congrArg Host.Outcome.next (mapHost_raise s hf _ _ _)

theorem exec_ldLoad_mapHost (hf : KeepsResult f) (x : RegIdx) :
    exec (.ldLoad x) (s.mapHost f) = mapNext (.mapHost f) (exec (.ldLoad x) s) := by
  by_cases h : s.i.toNat + (x.val + 1) ≤ 4096
  · rw [exec_ldLoad_of_le s x h, exec_ldLoad_of_le (s.mapHost f) x h, mapHost_bytesFrom, mapHost_putRegs]
    rfl
  · rw [exec_ldLoad_of_gt s x h, exec_ldLoad_of_gt (s.mapHost f) x h]
    exact congrArg Host.Outcome.next (mapHost_raise s hf _ _ _)

/-! ### Instructions that look at the port -/

theorem keyPressed_mapHost (hkey : ∀ p, (f p).key = p.key) : (s.mapHost f).keyPressed = s.keyPressed :=
  congrArg BitVec.getLsbD (hkey s.host)

theorem exec_skp_mapHost (hf : KeepsResult f) (hkey : ∀ p, (f p).key = p.key) (x : RegIdx) :
    exec (.skp x) (s.mapHost f) = mapNext (.mapHost f) (exec (.skp x) s) := by
  rcases Nat.lt_or_ge 0xF (s.reg x).toNat with h | h
  · rw [exec_skp_of_gt s x h, exec_skp_of_gt (s.mapHost f) x h, mapHost_raise s hf, mapNext_next]
  · rw [exec_skp_of_le s x h, exec_skp_of_le (s.mapHost f) x h, keyPressed_mapHost s hkey]
    rfl

theorem exec_sknp_mapHost (hf : KeepsResult f) (hkey : ∀ p, (f p).key = p.key) (x : RegIdx) :
    exec (.sknp x) (s.mapHost f) = mapNext (.mapHost f) (exec (.sknp x) s) := by
  rcases Nat.lt_or_ge 0xF (s.reg x).toNat with h | h
  · rw [exec_sknp_of_gt s x h, exec_sknp_of_gt (s.mapHost f) x h, mapHost_raise s hf, mapNext_next]
  · rw [exec_sknp_of_le s x h, exec_sknp_of_le (s.mapHost f) x h, keyPressed_mapHost s hkey]
    rfl

theorem exec_ldVxK_mapHost (hkey : ∀ p, (f p).key = p.key) (x : RegIdx) :
    exec (.ldVxK x) (s.mapHost f) = mapNext (.mapHost f) (exec (.ldVxK x) s) := by
  have hlowest : (s.mapHost f).lowestKey = s.lowestKey := by
    rw [State.lowestKey, keyPressed_mapHost s hkey, State.lowestKey]
  rw [exec_ldVxK, exec_ldVxK, mapNext_next]
  cases h : s.lowestKey with
  | none => rw [s.afterKeyWait_of_none x h, (s.mapHost f).afterKeyWait_of_none x (hlowest.trans h)]
  | some k =>
    rw [s.afterKeyWait_of_some x h, (s.mapHost f).afterKeyWait_of_some x (hlowest.trans h)]
    rfl

theorem exec_rnd_mapHost (hrnd : ∀ p, (f p).rnd = p.rnd) (x : RegIdx) (nn : Byte) :
    exec (.rnd x nn) (s.mapHost f) = mapNext (.mapHost f) (exec (.rnd x nn) s) := by
  have hbyte : (s.mapHost f).host.rnd = s.host.rnd := hrnd s.host
  rw [exec_rnd, exec_rnd, hbyte]
  rfl

/-! ### Every instruction -/

/-- Changing the port before an instruction is changing it after: the key instructions see a change of KEY only, and
Cxnn a change of RND only. -/
theorem exec_mapHost (hf : KeepsResult f) (i : Instr)
    (hkey : i.mnemonic ∈ ["SKP", "SKNP", "LD_Vx_K"] → ∀ p, (f p).key = p.key)
    (hrnd : i.mnemonic = "RND" → ∀ p, (f p).rnd = p.rnd) :
    exec i (s.mapHost f) = mapNext (.mapHost f) (exec i s) := by
  cases i with
  | ret => exact exec_ret_mapHost s hf
  | call nnn => exact exec_call_mapHost s hf nnn
  | ldF x => exact exec_ldF_mapHost s hf x
  | drw x y n => exact exec_drw_mapHost s hf x y n
  | ldB x => exact exec_ldB_mapHost s hf x
  | ldStore x => exact exec_ldStore_mapHost s hf x
  | ldLoad x => exact exec_ldLoad_mapHost s hf x
  | skp x => exact exec_skp_mapHost s hf (hkey (by simp [Instr.mnemonic])) x
  | sknp x => exact exec_sknp_mapHost s hf (hkey (by simp [Instr.mnemonic])) x
  | ldVxK x => exact exec_ldVxK_mapHost s (hkey (by simp [Instr.mnemonic])) x
  | rnd x nn => exact exec_rnd_mapHost s (hrnd rfl) x nn
  | addReg x y =>
    rw [exec_addReg, exec_addReg]
    rfl
  | _ => rfl

end

end Sys2Proof.Machine

open Sys2Proof Sys2Proof.Machine

/-- Settles O23: a change of KEY is one the other instructions do not see. -/
theorem onlyKeyInstructionsReadKeypad : Obligations.OnlyKeyInstructionsReadKeypad := by
  intro i s t key hi hexec
  have h := exec_mapHost (f := fun p => { p with key := key }) s (fun _ _ => rfl) i (fun hmem => absurd hmem hi)
    fun _ _ => rfl
  rwa [hexec] at h

/-- Settles O24: a change of RND is one the other instructions do not see. -/
theorem onlyRndReadsRandomByte : Obligations.OnlyRndReadsRandomByte := by
  intro i s t b hi hexec
  have h := exec_mapHost (f := fun p => { p with rnd := b }) s (fun _ _ => rfl) i (fun _ _ => rfl)
    fun heq => absurd heq hi
  rwa [hexec] at h

end

section
/-! PROOFS. One STEP (10_state.md section 12, 20_memory.md section 3, 60_exceptions.md): O6, O8 to O15, O46 and O54. -/

namespace Sys2Proof.Machine

variable {s t u : State} {i : Instr} {w : Word}

/-! ### What the cycle runs -/

theorem fetch_of_lt (h : s.pc.toNat + 1 < 4096) :
    s.fetch = some (wordOfBytes (s.readByte s.pc.toNat) (s.readByte (s.pc.toNat + 1))) :=
  State.fetch_eq_some.2 ⟨h, rfl⟩

theorem cycle_of_fetch (h : s.fetch = some w) : s.cycle = s.runWord w := by
  rw [State.cycle, h]

theorem cycle_of_no_fetch (h : s.fetch = none) : s.cycle = .next (s.raiseBounds 0 s.pc.toNat) := by
  rw [State.cycle, h]

theorem runWord_of_unknown (h : decode w = .unknownOpcode w) : s.runWord w = .next (s.raise .unknownOpcode w 0) := by
  rw [State.runWord, h]

theorem runWord_of_exec (h : decode w = .instr i) (hexec : exec i s = .next t) : s.runWord w = t.retire := by
  simp only [State.runWord, h, hexec]

/-- A STEP of a READY core that fetches `w` runs it with its inputs latched. -/
theorem step_of_fetch (hs : s.status = .ready) (hl : s.pendingLoad = none) (hf : s.fetch = some w) :
    step s = s.takeInputs.runWord w := by
  rw [step_of_ready s hs hl, cycle_of_fetch (s.fetch_takeInputs.trans hf)]

theorem step_of_no_fetch (hs : s.status = .ready) (hl : s.pendingLoad = none) (hf : s.fetch = none) :
    step s = .next (s.takeInputs.raiseBounds 0 s.pc.toNat) := by
  rw [step_of_ready s hs hl, cycle_of_no_fetch (s.fetch_takeInputs.trans hf), State.takeInputs_pc]

theorem toNat_wordOfBytes (a b : Byte) : (wordOfBytes a b).toNat = 256 * a.toNat + b.toNat := toNat_append_eq a b

/-! ### What a STEP of a READY core can do -/

/-- The STEP raised: it took an error, with the fetched word, or 0 where there is none, as ERR_OP. -/
def StepRaises (s t : State) : Prop :=
  ∃ e addr, t = s.takeInputs.raise e (s.fetch.getD 0) addr ∧ ErrAddrFits e addr

/-- The STEP ran the instruction `i` to its end, and then the divider advanced. -/
structure StepCompletes (s : State) (i : Instr) (u t : State) : Prop where
  fetched : s.pc.toNat + 1 < 4096
  completes : Completes s.takeInputs i u
  divider : 1 ≤ s.div
  retired : t = u.divAdvance.withResult .ok

theorem Completes.status_eq (h : Completes s i u) : u.status = s.status := h.frame.sameStatus.1

theorem Completes.div_eq (h : Completes s i u) : u.div = s.div := by
  obtain ⟨-, -, -, -, -, -, -, hdiv, -⟩ := h.frame
  exact hdiv

theorem Completes.config_eq (h : Completes s i u) : u.config = s.config := by
  obtain ⟨-, -, -, -, -, -, -, -, -, -, -, -, -, hconfig, -⟩ := h.frame
  exact hconfig

theorem Completes.host_eq (h : Completes s i u) : u.host = s.host := by
  obtain ⟨-, -, -, -, -, -, -, -, -, -, -, -, -, -, hhost⟩ := h.frame
  exact hhost

/-- The end of a step that did not raise: the divider advances, which it can only do from a DIV that is not 0. -/
theorem retire_eq_next (hs : s.status ≠ .halted) (h : s.retire = .next t) :
    1 ≤ s.div ∧ t = s.divAdvance.withResult .ok := by
  by_cases hd : 1 ≤ s.div
  · exact ⟨hd, Host.Outcome.next.inj (h.symm.trans (s.retire_of_running hs hd))⟩
  · simp [State.retire, hs, State.dividerOk, hd] at h

theorem step_ready_cases (hs : s.status = .ready) (hl : s.pendingLoad = none) (h : step s = .next t) :
    StepRaises s t ∨ ∃ i u, StepCompletes s i u t := by
  cases hf : s.fetch with
  | none =>
    rw [step_of_no_fetch hs hl hf] at h
    refine .inl ⟨.memoryOutOfBounds, rangeErrAddr s.pc.toNat, ?_, .bounds s.pc⟩
    rw [hf]
    exact (Host.Outcome.next.inj h).symm
  | some w =>
    rw [step_of_fetch hs hl hf] at h
    rcases decode_decodesTo w with ⟨i, hi, hw⟩ | hu
    · obtain ⟨u, hexec, hcases⟩ := exec_answers s.takeInputs i
      rw [runWord_of_exec hi hexec] at h
      rcases hcases with hcompletes | ⟨e, addr, hraises⟩
      · have hrunning : u.status ≠ .halted := by simp [hcompletes.status_eq, hs]
        obtain ⟨hdiv, ht⟩ := retire_eq_next hrunning h
        rw [hcompletes.div_eq] at hdiv
        exact .inr ⟨i, u, (State.fetch_eq_some.1 hf).1, hcompletes, hdiv, ht⟩
      · rw [u.retire_of_halted hraises.halted] at h
        refine .inl ⟨e, addr, ?_, hraises.errAddr⟩
        rw [hf, Option.getD_some, ← hw, ← hraises.entry]
        exact (Host.Outcome.next.inj h).symm
    · rw [runWord_of_unknown hu] at h
      refine .inl ⟨.unknownOpcode, 0, ?_, .zero (by decide)⟩
      rw [hf]
      exact (Host.Outcome.next.inj h).symm

theorem StepRaises.halted (h : StepRaises s t) : t.status = .halted := by
  obtain ⟨e, addr, rfl, -⟩ := h
  rfl

theorem StepCompletes.status_eq (h : StepCompletes s i u t) : t.status = s.status := by
  rw [h.retired]
  exact h.completes.status_eq

theorem ticks_iff (hd : 1 ≤ s.div) : s.ticks = true ↔ s.div = 1 := by
  rw [State.ticks, beq_iff_eq]
  omega

theorem divAdvance_div (hd : 1 ≤ s.div) :
    s.divAdvance.div = if s.div = 1 then s.config.cyclesPerTick else s.div - 1 := by
  simp only [State.divAdvance_div, ticks_iff hd]

theorem StepCompletes.div_eq (h : StepCompletes s i u t) :
    t.div = if s.div = 1 then s.config.cyclesPerTick else s.div - 1 := by
  have hdiv := h.completes.div_eq
  have hd : 1 ≤ u.div := hdiv ▸ h.divider
  rw [h.retired, State.withResult_div, divAdvance_div hd, hdiv, h.completes.config_eq]
  rfl

/-! ### A store over the next instruction -/

theorem overlaid_congr {n : Nat} {f g : Nat → Byte} (h : ∀ k < n, f k = g k) (a : Nat) :
    overlaid s n f a = overlaid s n g a := by
  unfold overlaid
  split
  case isTrue hin => exact h _ (by omega)
  case isFalse => rfl

/-- The `k`-th byte that Fx55 stores. -/
theorem getD_regsUpTo (s : State) (x : RegIdx) : ∀ k < (s.regsUpTo x).length,
    ((s.regsUpTo x)[k]?).getD 0 = (s.v[k]?).getD 0 := by
  intro k hk
  rw [s.length_regsUpTo] at hk
  have hreg : k < 16 := by omega
  rw [s.getElem?_regsUpTo x ⟨k, hreg⟩ (Nat.le_of_lt_succ hk), Vector.getElem?_eq_getElem hreg]
  rfl

/-- The `k`-th byte that Fx33 stores: the hundreds are a digit already. -/
theorem getD_bcdDigits (b : Byte) : ∀ k < (bcdDigits b).length,
    ((bcdDigits b)[k]?).getD 0 = BitVec.ofNat 8 (b.toNat / 10 ^ (2 - k) % 10) := by
  intro k hk
  match k, hk with
  | 0, _ =>
    have hbyte : b.toNat < 256 := b.isLt
    have hhundreds : b.toNat / 100 % 10 = b.toNat / 100 := Nat.mod_eq_of_lt (by omega)
    simp [bcdDigits, trunc8, hhundreds]
  | 1, _ => simp [bcdDigits, trunc8]
  | 2, _ => simp [bcdDigits, trunc8]

/-- What a STEP that stores `bs` from I upward leaves. -/
def State.afterStore (s : State) (bs : List Byte) : State :=
  (s.takeInputs.putBytes s.i.toNat bs).advance.divAdvance.withResult .ok

theorem step_of_store {bs : List Byte} (hs : s.status = .ready) (hl : s.pendingLoad = none) (hd : 1 ≤ s.div)
    (hf : s.fetch = some w) (hi : decode w = .instr i)
    (hexec : exec i s.takeInputs = .next (s.takeInputs.putBytes s.i.toNat bs).advance) :
    step s = .next (s.afterStore bs) := by
  rw [step_of_fetch hs hl hf, runWord_of_exec hi hexec, State.afterStore, s.takeInputs.putBytes_frame]
  exact State.retire_of_running _ (by simp [hs]) hd

theorem toNat_afterStore_pc (bs : List Byte) (h : s.pc.toNat + 3 < 4096) :
    (s.afterStore bs).pc.toNat = s.pc.toNat + 2 := by
  have hpc : (s.afterStore bs).pc = s.pc + 2 := congrArg (· + 2) (s.takeInputs.putBytes_pc s.i.toNat bs)
  have hlt : s.pc.toNat + (2 : Word).toNat < 2 ^ 16 := by
    show s.pc.toNat + 2 < 65536
    omega
  rw [hpc, BitVec.toNat_add_of_lt hlt]
  rfl

theorem readByte_afterStore (bs : List Byte) (a : Nat) :
    (s.afterStore bs).readByte a = overlaid s bs.length (fun k => (bs[k]?).getD 0) a :=
  s.takeInputs.readByte_putBytes_eq_overlaid bs a

theorem fetch_of_pc {p : Nat} (hpc : s.pc.toNat = p) (h : p + 1 < 4096) :
    s.fetch = some (wordOfBytes (s.readByte p) (s.readByte (p + 1))) := by
  subst hpc
  exact fetch_of_lt h

/-- After a STEP that stores `bs` from I upward the next word is fetched with those bytes over MEM. -/
theorem fetch_after_store {bs : List Byte} {stored : Nat → Byte} (hs : s.status = .ready) (hl : s.pendingLoad = none)
    (hd : 1 ≤ s.div) (hpc : s.pc.toNat + 3 < 4096)
    (hi : decode (wordOfBytes (s.readByte s.pc.toNat) (s.readByte (s.pc.toNat + 1))) = .instr i)
    (hexec : exec i s.takeInputs = .next (s.takeInputs.putBytes s.i.toNat bs).advance)
    (hstored : ∀ k < bs.length, (bs[k]?).getD 0 = stored k) :
    ∃ t, step s = .next t ∧ t.fetch = some (wordOfBytes (overlaid s bs.length stored (s.pc.toNat + 2))
      (overlaid s bs.length stored (s.pc.toNat + 3))) := by
  refine ⟨s.afterStore bs, step_of_store hs hl hd (fetch_of_lt (by omega)) hi hexec, ?_⟩
  rw [fetch_of_pc (toNat_afterStore_pc bs hpc) hpc, readByte_afterStore, readByte_afterStore,
    overlaid_congr hstored, overlaid_congr hstored]

end Sys2Proof.Machine

open Sys2Proof Sys2Proof.Machine

/-- Settles O6: the fetch succeeds, and the word decodes to the instruction. -/
theorem stepRunsDecodedInstruction : Obligations.StepRunsDecodedInstruction := by
  intro s i hs hl hpc hi t hexec
  rw [step_of_fetch hs hl (fetch_of_lt hpc), runWord_of_exec hi hexec]

/-- Settles O8: the inputs are those of the STEP at the head of the queue, or the free ones when the queue is empty. -/
theorem stepLatchesHostInputs : Obligations.StepLatchesHostInputs := by
  intro s
  refine ⟨rfl, fun key rnd rest h => ?_, fun h => ?_⟩
  · rw [State.takeInputs_host, HostPort.takeInputs, h]
    exact ⟨rfl, rfl, rfl⟩
  · rw [State.takeInputs_host, HostPort.takeInputs, h]
    exact ⟨rfl, rfl, rfl⟩

/-- Settles O9: the step is a tick exactly for DIV = 1. -/
theorem retireAdvancesDivider : Obligations.RetireAdvancesDivider := by
  intro s hs hd
  refine ⟨_, s.retire_of_running hs hd, rfl, fun hne => ?_, fun heq => ?_, rfl, rfl, rfl, rfl, rfl, rfl,
    fun _ => rfl, ⟨rfl, rfl, rfl, rfl, rfl⟩, rfl⟩
  · have hticks : s.ticks = false := Bool.eq_false_iff.2 (mt (ticks_iff hd).1 hne)
    simp [hticks]
  · have hticks : s.ticks = true := (ticks_iff hd).2 heq
    simp [hticks, toNat_tickDown]

/-- Settles O10: the check of PC + 1 decides between the word and the error. -/
theorem fetchIsBigEndianOrRaises : Obligations.FetchIsBigEndianOrRaises := by
  intro s
  refine ⟨fun h => ⟨_, fetch_of_lt h, toNat_wordOfBytes _ _⟩, fun h hs hl => ?_⟩
  exact ⟨_, step_of_no_fetch hs hl (State.fetch_eq_none.2 h), entersError_raise s.takeInputs .memoryOutOfBounds 0 _⟩

/-- Settles O11: the rejected word is the one fetched. -/
theorem unknownOpcodeRaises : Obligations.UnknownOpcodeRaises := by
  intro s w hs hl hf hu
  exact ⟨_, (step_of_fetch hs hl hf).trans (runWord_of_unknown hu), entersError_raise s.takeInputs .unknownOpcode w 0⟩

/-- Settles O12: a STEP that ran an instruction to its end leaves the core READY, so this one took an error. -/
theorem raisingStepChangesOnlyRecord : Obligations.RaisingStepChangesOnlyRecord := by
  intro s t hs hl hstep hhalted
  rcases step_ready_cases hs hl hstep with ⟨e, addr, rfl, -⟩ | ⟨i, u, hcompletes⟩
  · exact entersError_raise s.takeInputs e _ addr
  · cases (hcompletes.status_eq.trans hs).symm.trans hhalted

/-- Settles O13: with no LOAD queued the operation is a STEP, which UNLOADED refuses. -/
theorem unloadedStepIsRefused : Obligations.UnloadedStepIsRefused := by
  intro s hs hl
  rw [step_of_no_load s hl, State.stepOp, State.takeInputs_status, hs]

/-- Settles O14: the STEP latches its inputs and returns a result, both of the host's port. -/
theorem haltedStepChangesNothing : Obligations.HaltedStepChangesNothing := fun s hs hl =>
  ⟨_, step_of_halted s hs hl, rfl, SameCore.refl s, SameStatus.refl s⟩

/-- Settles O15, by induction on the number of operations: each leaves the core as it is and queues no LOAD. -/
theorem haltedIsAbsorbing : Obligations.HaltedIsAbsorbing := by
  intro k
  induction k with
  | zero => exact fun s _ _ => ⟨s, rfl, SameCore.refl s, SameStatus.refl s⟩
  | succ k ih =>
    intro s hs hn
    obtain ⟨hl, hn'⟩ := hn.takeInputs
    obtain ⟨t, hrun, hcore, hstatus⟩ := ih (s.takeInputs.withResult (.error s.errCode)) hs hn'
    exact ⟨t, (run_succ_of_next (step_of_halted s hs hl)).trans hrun, hcore, hstatus⟩

/-- Settles O46: Fx55 and Fx33 are each one store from I upward, of the registers and of the digits. -/
theorem storeOverNextInstructionIsFetched : Obligations.StoreOverNextInstructionIsFetched := by
  intro x s hs hl hd hpc
  refine ⟨fun hi hin => ?_, fun hi hin => ?_⟩
  · have hfetch := fetch_after_store hs hl hd hpc hi (exec_ldStore_of_le s.takeInputs x hin) (getD_regsUpTo s x)
    rwa [show (s.takeInputs.regsUpTo x).length = x.val + 1 from s.length_regsUpTo x] at hfetch
  · have hfetch := fetch_after_store hs hl hd hpc hi (exec_ldB_of_le s.takeInputs x hin) (getD_bcdDigits (s.reg x))
    rwa [show (bcdDigits (s.takeInputs.reg x)).length = 3 from rfl] at hfetch

/-- Settles O54: a STEP that raised leaves the core HALTED, so this one ran an instruction to its end. -/
theorem successfulStepCountsDividerDown : Obligations.SuccessfulStepCountsDividerDown := by
  intro s t hs hl hstep hready
  rcases step_ready_cases hs hl hstep with hraises | ⟨i, u, hcompletes⟩
  · cases hraises.halted.symm.trans hready
  · exact hcompletes.div_eq

end

section
/-! PROOFS. Runs of several steps (60_exceptions.md section 3): O25. -/

namespace Sys2Proof.Machine

variable {s t u : State} {i : Instr}

/-! ### What a step without an error keeps -/

theorem StepCompletes.config_eq (h : StepCompletes s i u t) : t.config = s.config := by
  rw [h.retired]
  exact h.completes.config_eq

theorem StepCompletes.noLoadPending (h : StepCompletes s i u t) (hn : NoLoadPending s) : NoLoadPending t := by
  have hhost : t.host.pending = s.takeInputs.host.pending := by
    rw [h.retired, ← h.completes.host_eq]
    rfl
  unfold NoLoadPending
  rw [hhost]
  exact hn.takeInputs.2

theorem StepRaises.noLoadPending (h : StepRaises s t) (hn : NoLoadPending s) : NoLoadPending t := by
  obtain ⟨e, addr, rfl, -⟩ := h
  exact hn.takeInputs.2

/-- A run without a LOAD that leaves the core READY started from a READY core: HALTED is absorbing (R108), and a STEP
in UNLOADED is refused (R121). -/
theorem ready_of_run {k : Nat} (hn : NoLoadPending s) (h : core.run k s = .next t) (ht : t.status = .ready) :
    s.status = .ready := by
  cases hs : s.status with
  | ready => rfl
  | halted =>
    obtain ⟨t', hrun, -, hstatus, -⟩ := haltedIsAbsorbing k s hs hn
    obtain rfl : t' = t := Host.Outcome.next.inj (hrun.symm.trans h)
    cases (hstatus.trans hs).symm.trans ht
  | unloaded =>
    cases k with
    | zero =>
      obtain rfl : s = t := Host.Outcome.next.inj h
      cases hs.symm.trans ht
    | succ k =>
      obtain ⟨u, hstep, -⟩ := run_succ_eq_next.1 h
      cases (unloadedStepIsRefused s hs hn.takeInputs.1).symm.trans hstep

/-- Counting down once more modulo `c`, from `c` again where the count has come to 1. -/
theorem countDown_succ {c : Nat} (hc : 1 ≤ c) (j : Nat) :
    (if c - j % c = 1 then c else c - j % c - 1) = c - (j + 1) % c := by
  have hlt : j % c < c := Nat.mod_lt j hc
  rw [← Nat.mod_add_mod j c 1]
  by_cases hlast : j % c + 1 = c
  · rw [if_pos (by omega), hlast, Nat.mod_self, Nat.sub_zero]
  · have hnext : (j % c + 1) % c = j % c + 1 := Nat.mod_eq_of_lt (by omega)
    rw [if_neg (by omega), hnext, Nat.sub_add_eq]

/-- DIV after `k` more steps without an error, where it had counted `j` down before them. -/
theorem div_of_run (k : Nat) : ∀ {j : Nat} {s t : State}, 1 ≤ s.config.cyclesPerTick →
    s.div = s.config.cyclesPerTick - j % s.config.cyclesPerTick → NoLoadPending s →
    core.run k s = .next t → t.status = .ready →
    t.div = s.config.cyclesPerTick - (j + k) % s.config.cyclesPerTick := by
  induction k with
  | zero =>
    intro j s t _ hdiv _ hrun _
    obtain rfl : s = t := Host.Outcome.next.inj hrun
    exact hdiv
  | succ k ih =>
    intro j s t hc hdiv hn hrun ht
    have hs := ready_of_run hn hrun ht
    obtain ⟨u, hstep, hrest⟩ := run_succ_eq_next.1 hrun
    rcases step_ready_cases hs hn.takeInputs.1 hstep with hraises | ⟨i, v, hcompletes⟩
    · cases hraises.halted.symm.trans (ready_of_run (hraises.noLoadPending hn) hrest ht)
    · have hdiv' := hcompletes.div_eq
      rw [hdiv, countDown_succ hc, ← hcompletes.config_eq] at hdiv'
      rw [← hcompletes.config_eq] at hc ⊢
      rw [← Nat.add_assoc, Nat.add_right_comm]
      exact ih hc hdiv' (hcompletes.noLoadPending hn) hrest ht

end Sys2Proof.Machine

open Sys2Proof Sys2Proof.Machine

/-- Settles O25: a fresh divider has counted nothing down yet. -/
theorem dividerTicksEveryCyclesPerTick : Obligations.DividerTicksEveryCyclesPerTick := by
  intro k s t hc hdiv hn hrun ht
  have hfresh : s.div = s.config.cyclesPerTick - 0 % s.config.cyclesPerTick := by rw [Nat.zero_mod, Nat.sub_zero, hdiv]
  have h := div_of_run k hc hfresh hn hrun ht
  rwa [Nat.zero_add] at h

end

section
/-! PROOFS. LOAD and reset (70_reset_and_hazards.md section 1, 10_state.md section 13): O16, O17 and O18. -/

namespace Sys2Proof.Machine

variable (s : State) {image : List Byte}

/-! ### What a LOAD can do -/

theorem imageFits_of_le (h : image.length ≤ 3584) : imageFits image = true := decide_eq_true h

theorem imageFits_of_gt (h : 3584 < image.length) : imageFits image = false := decide_eq_false (Nat.not_le.2 h)

theorem load_of_fits (h : image.length ≤ 3584) : s.load image = s.loaded image := by
  simp [State.load, acceptedImage, imageFits_of_le h]

theorem load_of_reject (h : 3584 < image.length) (hp : s.config.oversizePolicy = .reject) :
    s.load image = s.withResult .loadTooLarge := by
  simp [State.load, acceptedImage, imageFits_of_gt h, hp]

theorem load_of_truncate (h : 3584 < image.length) (hp : s.config.oversizePolicy = .truncate) :
    s.load image = s.loaded (image.take 3584) := by
  simp [State.load, acceptedImage, imageFits_of_gt h, hp]

/-- A LOAD loads an image that fits, or returns LOAD_TOO_LARGE. -/
theorem load_cases (image : List Byte) :
    (∃ bytes, bytes.length ≤ 3584 ∧ s.load image = s.loaded bytes) ∨ s.load image = s.withResult .loadTooLarge := by
  rcases Nat.lt_or_ge 3584 image.length with h | h
  · cases hp : s.config.oversizePolicy with
    | reject => exact .inr (load_of_reject s h hp)
    | truncate => exact .inl ⟨_, List.length_take_le _ _, load_of_truncate s h hp⟩
  · exact .inl ⟨image, h, load_of_fits s h⟩

/-! ### MEM after a LOAD -/

theorem unlisted_of_ge (c : Config) {a : Nat} (h : 80 ≤ a) : Memory.unlisted c a = 0 :=
  dif_neg (Nat.not_lt.2 h)

/-- MEM after a LOAD: the font, 0 up to PROG_BASE, the image, and 0 after it (R38). -/
theorem readByte_loaded (image : List Byte) (a : Nat) :
    (s.loaded image).readByte a =
      if h : a < 80 then s.config.fontTable[a] else if a < 0x200 then 0 else (image[a - 0x200]?).getD 0 := by
  have hread : (s.loaded image).readByte a =
      if 0x200 ≤ a then (image[a - 0x200]?).getD (Memory.unlisted s.config a) else Memory.unlisted s.config a :=
    Memory.read_image s.config image 0x200 a
  rw [hread]
  split
  case isTrue hprog =>
    rw [dif_neg (by omega), if_neg (Nat.not_lt.2 hprog), unlisted_of_ge _ (by omega)]
  case isFalse hprog =>
    unfold Memory.unlisted
    split
    case isTrue => rfl
    case isFalse => rw [if_pos (by omega)]

theorem reg_loaded (image : List Byte) (r : RegIdx) : (s.loaded image).reg r = 0 :=
  Vector.getElem_replicate r.isLt

theorem stack_loaded (image : List Byte) (j : Fin 16) : (s.loaded image).stack[j] = 0 :=
  Vector.getElem_replicate j.isLt

theorem pixel_loaded (image : List Byte) (c r : Nat) : (s.loaded image).pixel c r = false :=
  Framebuffer.pixel_blank c r

end Sys2Proof.Machine

open Sys2Proof Sys2Proof.Machine

/-- Settles O16: the LOAD leaves `State.loaded`, read piece by piece. -/
theorem loadLeavesResetValues : Obligations.LoadLeavesResetValues := by
  intro s image hl hfits
  refine ⟨s.popPending.loaded image, ?_, rfl, rfl, readByte_loaded s.popPending image, reg_loaded _ image, rfl, rfl,
    rfl, stack_loaded _ image, rfl, rfl, rfl, pixel_loaded _ image, rfl, rfl, rfl, rfl, rfl, rfl⟩
  rw [step_of_load s hl, load_of_fits _ hfits]

/-- Settles O17: the policy decides between no LOAD at all and that of the first 3584 bytes, which fit. -/
theorem oversizeLoadFollowsPolicy : Obligations.OversizeLoadFollowsPolicy := by
  intro s image hl hlarge
  constructor
  · intro hp
    refine ⟨s.popPending.withResult .loadTooLarge, ?_, rfl, SameCore.refl s, SameStatus.refl s⟩
    rw [step_of_load s hl, load_of_reject s.popPending hlarge hp]
  · intro hp
    have hfits : (image.take 3584).length ≤ 3584 := List.length_take_le _ _
    rw [step_of_load s hl, load_of_truncate s.popPending hlarge hp, step_of_load _ rfl, load_of_fits _ hfits]
    rfl

/-- Settles O18: the values of R38 for no image are those of reset, under the machine's parameters. -/
theorem resetIsEmptyLoad : Obligations.ResetIsEmptyLoad := by
  intro s hconfig
  rw [load_of_fits s (Nat.zero_le _)]
  refine ⟨rfl, ?_⟩
  unfold State.loaded
  rw [hconfig]
  rfl

end

section
/-! PROOFS. The invariant (10_state.md sections 4, 7 and 9): O19 and O20. -/

namespace Sys2Proof.Machine

variable {s t u : State} {i : Instr}

/-- What the host's port holds is no matter of the invariant. -/
theorem inv_withHost (p : HostPort) : ({ s with host := p } : State).Inv ↔ s.Inv := Iff.rfl

theorem inv_loaded (hconfig : s.config.WellFormed = true) {image : List Byte} (h : image.length ≤ 3584) :
    (s.loaded image).Inv := by
  have hdivider : (s.loaded image).DividerInRange := ⟨of_decide_eq_true hconfig, Nat.le_refl _⟩
  have haddresses : (s.loaded image).AddressesInRange := by
    have hpc : (0x200 : Word).toNat ≤ 0x1002 := by decide
    refine ⟨hpc, fun j => ?_⟩
    rw [stack_loaded]
    exact Nat.zero_le _
  have hrecord : (s.loaded image).RecordConsistent := ⟨fun _ => ⟨rfl, rfl, rfl, rfl⟩, nofun⟩
  exact ⟨hconfig, fun _ => ⟨Memory.wf_image s.config h, hdivider, haddresses, hrecord⟩⟩

theorem inv_load (h : s.Inv) (image : List Byte) : (s.load image).Inv := by
  rcases load_cases s image with ⟨bytes, hfits, hload⟩ | hload
  · rw [hload]
    exact inv_loaded h.1 hfits
  · rw [hload]
    exact (inv_withHost _).2 h

/-- Taking an error keeps the invariant: the record it writes is one of R105. -/
theorem inv_raise (h : s.Inv) (hs : s.status ≠ .unloaded) {e : ExecError} {op addr : Word}
    (hfits : ErrAddrFits e addr) : (s.raise e op addr).Inv := by
  obtain ⟨hconfig, hloaded⟩ := h
  obtain ⟨hwf, hdiv, haddr, -⟩ := hloaded hs
  obtain ⟨hcode1, hcode6, hbounds⟩ := e.code_range
  have hrecord : (s.raise e op addr).RecordConsistent :=
    ⟨nofun, fun _ => ⟨hcode1, hcode6, rfl, fun h5 => hfits.1 (hbounds.1 h5), fun h5 => hfits.2 (mt hbounds.2 h5)⟩⟩
  exact ⟨hconfig, fun _ => ⟨hwf, hdiv, haddr, hrecord⟩⟩

/-- A step that ran an instruction to its end keeps the invariant: the instruction keeps PC, the stack and MEM in
range, the divider counts from 1 to CYCLES_PER_TICK, and the record stays all 0. -/
theorem StepCompletes.inv (hstep : StepCompletes s i u t) (h : s.Inv) (hs : s.status = .ready) : t.Inv := by
  obtain ⟨hconfig, hloaded⟩ := h
  obtain ⟨hwf, ⟨hdiv1, hdivc⟩, haddr, hrecord, -⟩ := hloaded (by simp [hs])
  obtain ⟨haddr', hwf'⟩ := hstep.completes.ranges hstep.fetched haddr hwf
  have hconfig' := hstep.config_eq
  have hstatus' : t.status = .ready := hstep.status_eq.trans hs
  have hdivider : t.DividerInRange := by
    have hdiv' := hstep.div_eq
    rw [State.DividerInRange, hconfig']
    split at hdiv' <;> omega
  have hsame : SameStatus s t := by
    rw [hstep.retired]
    exact hstep.completes.frame.sameStatus
  obtain ⟨-, hcode, hpc, hop, hat⟩ := hsame
  obtain ⟨hcode0, hpc0, hop0, haddr0⟩ := hrecord hs
  have hrecord' : t.RecordConsistent :=
    ⟨fun _ => ⟨hcode.trans hcode0, hpc.trans hpc0, hop.trans hop0, hat.trans haddr0⟩,
      fun hhalted => by cases hstatus'.symm.trans hhalted⟩
  refine ⟨hconfig' ▸ hconfig, fun _ => ⟨?_, hdivider, ?_, hrecord'⟩⟩
  · rw [hstep.retired]
    exact hwf'
  · rw [hstep.retired]
    exact haddr'

/-- The host's operations: a LOAD, a STEP in each STATUS. -/
theorem inv_step (h : s.Inv) (hstep : step s = .next t) : t.Inv := by
  cases hl : s.pendingLoad with
  | some image =>
    obtain rfl := Host.Outcome.next.inj ((step_of_load s hl).symm.trans hstep)
    exact inv_load ((inv_withHost _).2 h) image
  | none =>
    cases hs : s.status with
    | unloaded => cases (unloadedStepIsRefused s hs hl).symm.trans hstep
    | halted =>
      obtain rfl := Host.Outcome.next.inj ((step_of_halted s hs hl).symm.trans hstep)
      exact (inv_withHost _).2 h
    | ready =>
      rcases step_ready_cases hs hl hstep with ⟨e, addr, rfl, hfits⟩ | ⟨i, u, hcompletes⟩
      · exact inv_raise (s := s.takeInputs) ((inv_withHost _).2 h) (by simp [hs]) hfits
      · exact hcompletes.inv h hs

end Sys2Proof.Machine

open Sys2Proof Sys2Proof.Machine

/-- Settles O19: reset is a LOAD of no image. -/
theorem resetMeetsInvariant : Obligations.ResetMeetsInvariant :=
  inv_loaded (s := State.reset) (image := []) (by decide) (Nat.zero_le _)

/-- Settles O20, operation by operation. -/
theorem stepKeepsInvariant : Obligations.StepKeepsInvariant := fun _ _ => inv_step

end
